-- ==== Sys2Proof/Word.lean ====
section
/-!
DEFINITION. The word types of QD-CORE. All values are unsigned (`spec/00_scope.md` R8); a width is written where the
spec states it. Addresses of the `OUT` space are natural numbers below `2^AW`, because `AW` is a parameter (R7).
-/
namespace Sys2Proof

/-- A byte of the Output Buffer (R22). -/
abbrev Byte := BitVec 8

/-- Value, the unsigned 32-bit integer to convert (R12). -/
abbrev Value := BitVec 32

/-- The fixed-point accumulator: 7 integer bits above 57 fraction bits (R14). -/
abbrev Acc := BitVec 64

/-- A digit key, bits [63:57] of an accumulator value (R58, R94). -/
abbrev Key := BitVec 7

end Sys2Proof
end

