-- ==== Sys2Proof/Config.lean ====
section
/-!
DEFINITION. The fixed constants of `spec/00_scope.md` R6, and the FREE VALUES: constants without a body, one for each
value the spec leaves unspecified (`spec/93_implementation_defined.md` U1, U4, U5). Nothing can be proved of a free value.
-/
namespace Sys2Proof

/-- `UNIT` = 2^57, the fixed-point scale constant (R6). -/
def Config.unit : Nat := 2 ^ 57

/-- `TENS` = 10 x `UNIT`, the threshold of the Scaler and of the lead step (R6). -/
def Config.tens : Nat := 10 * 2 ^ 57

/-- `MAX_DIGITS`: the largest digit count of a 32-bit Value and the capacity a call needs (R6). -/
abbrev Config.maxDigits : Nat := 10

/-- `N_ORDER`: the number of Scale Entries (R6). -/
abbrev Config.nOrder : Nat := 33

/-- `N_PAIR`: the number of Digit-Pair Table entries (R6). -/
abbrev Config.nPair : Nat := 100

/-- `MAX_PAIR_STEPS`: the bound on two-digit steps, lead pair plus loop (R6). -/
abbrev Config.maxPairSteps : Nat := 5

/-- The smallest `AW` the spec allows (R7). -/
abbrev Config.awMin : Nat := 4

/-- The `AW` recommended for tests (R7); `State.reset` takes it. DESIGN CHOICE, log entry 1. -/
abbrev Config.awTest : Nat := 32

/-- FREE: `wr_data[15:8]` of a one-byte beat (U4). Log entry 14. -/
opaque Config.freeLane : Nat → BitVec 8

/-- FREE: `V` after a reset step (U1). Log entry 3. -/
opaque Config.freeV : Nat → BitVec 32
/-- FREE: `CUR` after a reset step, cut to `AW` bits (U1). Log entry 3. -/
opaque Config.freeCur : Nat → Nat
/-- FREE: `CAP` after a reset step, cut to `AW` bits (U1). Log entry 3. -/
opaque Config.freeCap : Nat → Nat
/-- FREE: `ORD` after a reset step (U1). Log entry 3. -/
opaque Config.freeOrd : Nat → BitVec 6
/-- FREE: `ND` after a reset step (U1). Log entry 3. -/
opaque Config.freeNd : Nat → BitVec 4
/-- FREE: `PRE` after a reset step (U1). Log entry 3. -/
opaque Config.freePre : Nat → BitVec 57
/-- FREE: `FRAC` after a reset step (U1). Log entry 3. -/
opaque Config.freeFrac : Nat → BitVec 64
/-- FREE: `REM` after a reset step (U1). Log entry 3. -/
opaque Config.freeRem : Nat → BitVec 4
/-- FREE: `LEN` after a reset step (U1). Log entry 3. -/
opaque Config.freeLen : Nat → BitVec 4
/-- FREE: `ST` after a reset step (U1). Log entry 3. -/
opaque Config.freeSt : Nat → BitVec 1

/-- FREE: `wr_addr` while `wr_valid = 0`, cut to `AW` bits (U5). Log entry 14. -/
opaque Config.freeWrAddr : Nat → Nat
/-- FREE: `wr_data` while `wr_valid = 0` (U5). Log entry 14. -/
opaque Config.freeWrData : Nat → BitVec 16
/-- FREE: `wr_be` while `wr_valid = 0` (U5). Log entry 14. -/
opaque Config.freeWrBe : Nat → BitVec 2
/-- FREE: `rsp_cursor` while `rsp_valid = 0`, cut to `AW` bits (U5). Log entry 14. -/
opaque Config.freeRspCursor : Nat → Nat
/-- FREE: `rsp_len` while `rsp_valid = 0` (U5). Log entry 14. -/
opaque Config.freeRspLen : Nat → BitVec 4
/-- FREE: `rsp_status` while `rsp_valid = 0` (U5). Log entry 14. -/
opaque Config.freeRspStatus : Nat → BitVec 1

end Sys2Proof
end

