-- ==== Sys2Proof/Syntax.lean ====
section
/-!
DEFINITION. The syntax: the request record `REQ` of `spec/30_encoding.md` R51 and one constructor of `Instr` for each of
the eight rows of `spec/opcode_table.json` (R59).
-/
namespace Sys2Proof

/-- The request record, format `REQ` (R51): the three operands of `ENCODE_U32`. -/
structure Request where
  /-- `value`, port `req_value`, bits [31:0]. -/
  value : Value
  /-- `cursor`, port `req_cursor`, bits [31+AW:32]. -/
  cursor : Nat
  /-- `capacity`, port `req_capacity`, bits [31+2*AW:32+AW]. -/
  capacity : Nat
deriving DecidableEq, Repr

/-- The eight rows of the operation map (R59). The micro-operations carry no operand fields (R54). -/
inductive Instr where
  /-- `ENCODE_U32 value, cursor, capacity`: the one operation (R50, R121). -/
  | encodeU32 (value : Value) (cursor capacity : Nat)
  /-- `ACCEPT`: latch the request and check the capacity (R117). -/
  | accept
  /-- `PREDICT`: the Digit-Count Predictor (R72). -/
  | predict
  /-- `SCALE`: the Fixed-Point Scaler (R81). -/
  | scale
  /-- `LEAD`: the lead step of the Digit Extractor (R91). -/
  | lead
  /-- `PAIR`: one iteration of the two-digit loop (R92). -/
  | pair
  /-- `LAST`: the final single-digit step (R93). -/
  | last
  /-- `DONE`: present the response (R118). -/
  | done
deriving DecidableEq, Repr

end Sys2Proof
end

