-- ==== Sys2Proof/WellFormed.lean ====
section
/-!
DEFINITION. Well-formed instructions: the operand widths of `spec/30_encoding.md` R51 for a given `AW`. Every pattern of
a request record is legal (R60), so the only check on `ENCODE_U32` is that its two addresses are `AW`-bit numbers; the
micro-operations have no fields to check. The parameter itself must satisfy `AW >= 4` (`spec/00_scope.md` R7).
-/
namespace Sys2Proof

/-- `AW >= 4`, so that a capacity of 10 can be stated (R7, D11). -/
def awLegal (aw : Nat) : Bool := decide (Config.awMin ≤ aw)

/-- `n` is an `aw`-bit number (R51). -/
def fitsAddr (aw n : Nat) : Bool := decide (n < 2 ^ aw)

/-- The operands of an instruction fit their fields for this `AW` (R51, R54). -/
def Instr.wellFormed (aw : Nat) : Instr → Bool
  | .encodeU32 _ cursor capacity => fitsAddr aw cursor && fitsAddr aw capacity
  | .accept => true
  | .predict => true
  | .scale => true
  | .lead => true
  | .pair => true
  | .last => true
  | .done => true

end Sys2Proof
end

