-- ==== Sys2Proof/Decode.lean ====
section
/-!
DEFINITION. The encodings of `spec/30_encoding.md`: the phase codes (R54), the packed request record (R51), their layout
as bytes, the decoder and the encoder. A phase code is carried as one byte (bits [2:0]) and a request record as
`ceil((32 + 2*AW) / 8)` bytes, least significant first; bits above the format are not looked at (log entry 11).
-/
namespace Sys2Proof

/-- `IDLE`, 000: the next step performs `ACCEPT` if a request is presented (R54). -/
def Phase.idle : BitVec 3 := 0b000#3
/-- `PREDICT`, 001 (R54). -/
def Phase.predict : BitVec 3 := 0b001#3
/-- `SCALE`, 010 (R54). -/
def Phase.scale : BitVec 3 := 0b010#3
/-- `LEAD`, 011 (R54). -/
def Phase.lead : BitVec 3 := 0b011#3
/-- `PAIR`, 100 (R54). -/
def Phase.pair : BitVec 3 := 0b100#3
/-- `LAST`, 101 (R54). -/
def Phase.last : BitVec 3 := 0b101#3
/-- `DONE`, 110 (R54). -/
def Phase.done : BitVec 3 := 0b110#3

/-- What the decoder rejects, by name. -/
inductive DecodeError where
  /-- `PHASE = 111`: reserved, unreachable (R60). -/
  | reservedPhase
  /-- The bytes are neither one phase byte nor one request record (R61: every record has one fixed length). -/
  | badLength (bytes : Nat)
deriving DecidableEq, Repr

/-- The low `n` bytes of `w`, least significant byte first. -/
def bytesLE : Nat → Nat → List Byte
  | 0, _ => []
  | n + 1, w => BitVec.ofNat 8 w :: bytesLE n (w / 256)

/-- The number whose bytes, least significant first, are given. -/
def ofBytesLE : List Byte → Nat
  | [] => 0
  | b :: rest => b.toNat + 256 * ofBytesLE rest

/-- The width of a request record: `32 + 2*AW` bits (R51). -/
def reqBits (aw : Nat) : Nat := 32 + 2 * aw

/-- The bytes that carry a request record. -/
def reqBytes (aw : Nat) : Nat := (reqBits aw + 7) / 8

/-- The micro-operation a phase code selects (R54, R59); 111 is reserved (R60). -/
def decodePhase (p : BitVec 3) : Except DecodeError Instr :=
  match p.toNat with
  | 0 => .ok .accept
  | 1 => .ok .predict
  | 2 => .ok .scale
  | 3 => .ok .lead
  | 4 => .ok .pair
  | 5 => .ok .last
  | 6 => .ok .done
  | _ => .error .reservedPhase

/-- The operation a packed request record stands for: every pattern is legal (R51, R60). -/
def decodeRequest (aw record : Nat) : Instr :=
  .encodeU32 (BitVec.ofNat 32 record) (record / 2 ^ 32 % 2 ^ aw) (record / 2 ^ (32 + aw) % 2 ^ aw)

/-- The instruction some bytes stand for: one byte is a phase code, `reqBytes aw` bytes are a request record. -/
def decode (aw : Nat) : List Byte → Except DecodeError Instr
  | [b] => decodePhase (b.setWidth 3)
  | bytes =>
    if bytes.length = reqBytes aw then .ok (decodeRequest aw (ofBytesLE bytes))
    else .error (.badLength bytes.length)

/-- The byte that carries a phase code. -/
def phaseByte (p : BitVec 3) : Byte := p.setWidth 8

/-- The packed request record (R51): value [31:0], cursor [31+AW:32], capacity [31+2*AW:32+AW]. -/
def encodeRequest (aw : Nat) (r : Request) : Nat :=
  r.value.toNat + r.cursor * 2 ^ 32 + r.capacity * 2 ^ (32 + aw)

/-- The bytes of a well-formed instruction (R51, R54). -/
def encode (aw : Nat) : Instr → List Byte
  | .encodeU32 value cursor capacity => bytesLE (reqBytes aw) (encodeRequest aw ⟨value, cursor, capacity⟩)
  | .accept => [phaseByte Phase.idle]
  | .predict => [phaseByte Phase.predict]
  | .scale => [phaseByte Phase.scale]
  | .lead => [phaseByte Phase.lead]
  | .pair => [phaseByte Phase.pair]
  | .last => [phaseByte Phase.last]
  | .done => [phaseByte Phase.done]

/-- The bytes of a table word: one byte for the `PHASE` rows (3 bits), a request record at `AW = 32` for the row
`ENCODE_U32`, whose table entry is wider (R51, R54). -/
def tableBytes (nbits w : Nat) : List Byte :=
  if nbits ≤ 8 then bytesLE 1 (w % 2 ^ nbits) else bytesLE (reqBytes Config.awTest) (w % 2 ^ nbits)

/-- The instruction the decoder reads from a word of `spec/opcode_table.json`, at `AW = 32` (log entry 11). -/
def decodeTableWord (nbits w : Nat) : Option Instr :=
  match decode Config.awTest (tableBytes nbits w) with
  | .ok i => some i
  | .error _ => none

end Sys2Proof
end

