-- ==== Sys2Proof/Machine/State.lean ====
section
/-!
DEFINITION. The state of one QD-CORE instance (`spec/10_state.md` R10 to R25), the records of its ports (R23), the reasons
a step can stop, and the state after reset (R25, `spec/70_reset_and_hazards.md` R151).
-/
namespace Sys2Proof.Machine

/-- The `OUT` space (R22, R30): the bytes whose value is known, by strictly rising address. A byte that is not listed has
no value: QD-CORE never reads memory (R31), and what the buffer held before a call is the caller's (log entry 5). -/
abbrev Memory := List Host.Cell

/-- One beat of the write port while `wr_valid = 1` (R23, R33, R53). `wr_data` is `lane1` above `lane0`. -/
structure WriteBeat where
  /-- `wr_addr`: the byte address of lane 0. -/
  addr : Nat
  /-- `wr_data[7:0]`: the byte for `wr_addr`. -/
  lane0 : Byte
  /-- `wr_data[15:8]`: the byte for `wr_addr + 1 mod 2^AW`; a free value when `be = 01` (U4). -/
  lane1 : Byte
  /-- `wr_be`: 01 one byte, 11 two bytes; 00 and 10 never occur (R53, R60). -/
  be : BitVec 2
deriving DecidableEq, Repr

/-- The response record while `rsp_valid = 1` (R23, R52). -/
structure Response where
  /-- `rsp_cursor`: the returned cursor. -/
  cursor : Nat
  /-- `rsp_len`: the bytes written, 0..10. -/
  len : BitVec 4
  /-- `rsp_status`: 0 `OK`, 1 `BufferTooSmall` (R131). -/
  status : BitVec 1
deriving DecidableEq, Repr

/-- What stands on the input ports during one step (R23), and what other agents write to `OUT` between this step and the
next (R45, R155; log entry 15). -/
structure PortIn where
  /-- `rst` (R150). -/
  rst : Bool
  /-- `req_valid` and the operands: `none` is `req_valid = 0`. -/
  req : Option Request
  /-- The bytes other agents write, in order; they land after this step's own write. -/
  foreign : List Host.Cell
deriving DecidableEq, Repr

/-- One entry of what the caller does, the reading of log entries 6 and 7. -/
inductive Stimulus where
  /-- The levels of the input ports for one step. -/
  | ports (p : PortIn)
  /-- The caller asks for the operation `ENCODE_U32` as a whole, by its packed request record (R51, R59). The caller holds
  the request until the instance is ready (R154); the call is then taken in one transition (log entry 7). -/
  | operation (record : Nat)
deriving DecidableEq, Repr

/-- The state of one instance. `aw`, `inputs` and `free` are the model's own fields. -/
structure State where
  /-- The parameter `AW` (R7): constant, written by no step (log entry 1). -/
  aw : Nat
  /-- `PHASE`, the sequencer register (R11, R54). -/
  phase : BitVec 3
  /-- `V`: Value (R12). -/
  v : Value
  /-- `CUR`: the address of the next byte to write, `AW` bits (R12). -/
  cur : Nat
  /-- `CAP`: the `capacity` operand, `AW` bits (R12). -/
  cap : Nat
  /-- `ORD`: Order (R13). -/
  ord : BitVec 6
  /-- `ND`: the digit count of the selected Scale Entry (R13). -/
  nd : BitVec 4
  /-- `PRE`: the prescale of the selected Scale Entry (R13). -/
  pre : BitVec 57
  /-- `FRAC`: the fixed-point accumulator (R14). -/
  frac : Acc
  /-- `REM`: the digits still to emit after the lead step (R15). -/
  rem : BitVec 4
  /-- `LEN`: the bytes written so far in this call (R16). -/
  len : BitVec 4
  /-- `ST`: 0 `OK`, 1 `BufferTooSmall` (R16, R131). -/
  st : BitVec 1
  /-- The `OUT` space (R22, R30). -/
  out : Memory
  /-- The write port in the step just taken: `none` is `wr_valid = 0` (R23). -/
  wr : Option WriteBeat
  /-- The response port in the step just taken: `none` is `rsp_valid = 0` (R23). -/
  rsp : Option Response
  /-- What the caller and the other agents do from the next step on, one entry a step; after its end `rst = 0`,
  `req_valid = 0` and nobody else writes (log entry 6). -/
  inputs : List Stimulus
  /-- The index of the next free values (log entry 3). -/
  free : Nat
deriving DecidableEq, Repr

/-- Why a step stops: the conditions of R60 and R144 (U3), none of which a run from reset reaches. All are safe: the spec
gives them no result, and asks a model to stop. -/
inductive Fault where
  /-- Raised by the step when `PHASE` decodes to nothing: `PHASE = 111` (R60, R144). Safe. -/
  | undecodable (e : DecodeError)
  /-- Raised by `PREDICT` on a `SCALE_ROM` address above 32 (R60, R144). Safe. -/
  | scaleRomAddress
  /-- Raised by `LEAD` (pair branch) and `PAIR` on a `PAIR_ROM` key above 99 (R60, R144). Safe. -/
  | pairRomKey
  /-- Raised by `LEAD` (single branch) and `LAST` on a digit above 9 (R60, R144). Safe. -/
  | digitAboveNine
  /-- Raised by `SCALE`, `PAIR` and `LAST` on a product at or above 2^64 (R144, U3). Safe. -/
  | productOverflow
  /-- Raised by `LEAD`, `PAIR`, `LAST` when `LEN` would pass 10, and by `DONE` when it has (R144). Safe. -/
  | lenAboveTen
  /-- Raised by `PAIR` when `REM` is below 2 (R92, R144, U3). Safe. -/
  | remAtPair
  /-- Raised by `LAST` when `REM` is not 1 (R93, R144). Safe. -/
  | remAtLast
  /-- Raised by `SCALE` when `ND` is outside 1..10 (R144). Safe. -/
  | ndOutOfRange
  /-- Raised by `MemWrite` on `wr_be` 00 or 10 (R60). Safe. -/
  | byteEnable
deriving DecidableEq, Repr

/-- Why a step is refused. -/
inductive Refusal where
  /-- Raised by `exec` for an instruction without a meaning; no arm raises it. Safe. -/
  | notModelled (mnemonic : String)
deriving DecidableEq, Repr

/-- The machine right after reset (R25, R151): `PHASE` is `IDLE`, the valid outputs are 0, nothing is known of `OUT`. The
other registers are unspecified by the spec; the value 0 is a DESIGN CHOICE (log entry 2), `aw` is 32 (log entry 1). -/
def State.reset : State where
  aw := Config.awTest
  phase := Phase.idle
  v := 0#32
  cur := 0
  cap := 0
  ord := 0#6
  nd := 0#4
  pre := 0#57
  frac := 0#64
  rem := 0#4
  len := 0#4
  st := 0#1
  out := []
  wr := none
  rsp := none
  inputs := []
  free := 0

end Sys2Proof.Machine
end

