-- ==== Sys2Proof/Machine/Operands.lean ====
section
/-!
DEFINITION. Operand assembly (`spec/30_encoding.md` R58) and the helper functions of the datapath: the Order function
(`spec/40_predictor.md` R71), the initial digit count (`spec/41_scaler.md` R83), splitting and characters
(`spec/42_extractor.md` R94), the choice of the next phase (R95).
-/
namespace Sys2Proof.Machine

/-- `W = zext_33(V) + 1`, in 33 bits, so that it never wraps (R58). -/
def plusOne (v : Value) : BitVec 33 := v.setWidth 33 + 1#33

/-- The number of consecutive zero bits from bit `n - 1` down to bit 0. -/
def leadingZeros (x : BitVec 64) : Nat → Nat
  | 0 => 0
  | n + 1 => if x.getLsbD n then 0 else leadingZeros x n + 1

/-- `clz64(x)`: the consecutive zero bits from bit 63 down (R8). -/
def clz64 (x : BitVec 64) : Nat := leadingZeros x 64

/-- The clamp to [0, 32] that the Order function ends with (R71, D24). -/
def clampOrder (o : Int) : Nat := if o < 0 then 0 else if 32 < o then 32 else o.toNat

/-- `order(v)`: `clz64` of the 64-bit view of `v + 1`, less 31, clamped (R71). -/
def order (v : Value) : BitVec 6 := BitVec.ofNat 6 (clampOrder ((clz64 ((plusOne v).setWidth 64) : Int) - 31))

/-- The correction term `zext_64(V >> 1)` (R58, R82). -/
def halfValue (v : Value) : Acc := (v >>> 1).setWidth 64

/-- `rem0(ND)`: the digits that remain after the lead step (R83). -/
def rem0 (nd : BitVec 4) : BitVec 4 := if 2 ≤ nd.toNat then nd - 2#4 else 0#4

/-- `ipart(t) = t[63:57]`: the integer part, a digit key (R94). -/
def ipart (t : Acc) : Key := t.extractLsb' 57 7

/-- `fpart(t) = zext_64(t[56:0])`: the fraction (R94). -/
def fpart (t : Acc) : Acc := (t.extractLsb' 0 57).setWidth 64

/-- `digit_char(d) = 0x30 + d`, for a digit 0..9 (R57, R94). -/
def digitChar (d : Key) : Byte := 0x30#8 + d.setWidth 8

/-- `after(r)`: the phase that follows when `r` digits remain (R95). -/
def afterPhase (r : BitVec 4) : BitVec 3 :=
  if 2 ≤ r.toNat then Phase.pair else if r.toNat = 1 then Phase.last else Phase.done

/-- The exact product of two unsigned numbers where it fits in 64 bits; a product at or above 2^64 has no result
(R81, R92, R93, R144, U3). -/
def mulExact (a b : Nat) : Option Acc := if a * b < 2 ^ 64 then some (BitVec.ofNat 64 (a * b)) else none

end Sys2Proof.Machine
end

