-- ==== Sys2Proof/Machine/Flags.lean ====
section
/-!
DEFINITION. QD-CORE has no flags (`spec/10_state.md` R17). Its two conditions are computed and consumed inside one step:
`t >= TENS` of `SCALE` (`spec/41_scaler.md` R82) and `FRAC >= TENS` of `LEAD` (`spec/42_extractor.md` R91); a third
comparison, of the capacity with `MAX_DIGITS`, is `ACCEPT`'s (`spec/60_exceptions.md` R131).
-/
namespace Sys2Proof.Machine

/-- The unsigned 64-bit compare with `TENS` (R82, R91). -/
def atLeastTens (t : Acc) : Bool := decide (Config.tens ≤ t.toNat)

/-- `corr(t, V)`: the rounding correction (R82). -/
def correction (t : Acc) (v : Value) : Acc := if atLeastTens t then halfValue v else 0#64

/-- `req_capacity < 10`: the cause of `BufferTooSmall` (R117, R131). -/
def tooSmall (capacity : Nat) : Bool := decide (capacity < Config.maxDigits)

end Sys2Proof.Machine
end

