-- ==== Sys2Proof/Machine/Tables.lean ====
section
/-!
DEFINITION. The two constant tables of QD-CORE, which no step writes (`spec/10_state.md` R20, R21, R25; D18): the 33 words
of `SCALE_ROM` as `spec/40_predictor.md` R75 prints them, and the 100 words of `PAIR_ROM` from the full table of
`spec/43_pair_table.md` R112, packed as `spec/30_encoding.md` R56 says.
-/
namespace Sys2Proof.Machine

/-- `SCALE_WORD` of Orders 0 to 10 (R75). -/
def scaleWordsLow : List (BitVec 61) :=
  [0x1400000055E63B88#61, 0x1400000055E63B88#61, 0x1400000055E63B88#61, 0x1400000055E63B88#61,
   0x120000035AFE5357#61, 0x120000035AFE5357#61, 0x120000035AFE5357#61, 0x100000218DEF416B#61,
   0x100000218DEF416B#61, 0x100000218DEF416B#61, 0x0E00014F8B588E36#61]

/-- `SCALE_WORD` of Orders 11 to 21 (R75). -/
def scaleWordsMid : List (BitVec 61) :=
  [0x0E00014F8B588E36#61, 0x0E00014F8B588E36#61, 0x0E00014F8B588E36#61, 0x0C000D1B71758E21#61,
   0x0C000D1B71758E21#61, 0x0C000D1B71758E21#61, 0x0A0083126E978D4F#61, 0x0A0083126E978D4F#61,
   0x0A0083126E978D4F#61, 0x08051EB851EB851E#61, 0x08051EB851EB851E#61]

/-- `SCALE_WORD` of Orders 22 to 32 (R75). -/
def scaleWordsHigh : List (BitVec 61) :=
  [0x08051EB851EB851E#61, 0x08051EB851EB851E#61, 0x0633333333333332#61, 0x0633333333333332#61,
   0x0633333333333332#61, 0x05FFFFFFFFFFFFFF#61, 0x05FFFFFFFFFFFFFF#61, 0x05FFFFFFFFFFFFFF#61,
   0x03FFFFFFFFFFFFFF#61, 0x03FFFFFFFFFFFFFF#61, 0x03FFFFFFFFFFFFFF#61]

/-- The 33 entries of `SCALE_ROM`, Order 0 first (R20, R75). -/
def scaleWords : List (BitVec 61) := scaleWordsLow ++ scaleWordsMid ++ scaleWordsHigh

/-- A read of `SCALE_ROM`: only addresses 0 to 32 are populated (R55, R60). -/
def scaleRom (order : BitVec 6) : Option (BitVec 61) := scaleWords[order.toNat]?

/-- The field `nd` of a `SCALE_WORD`, bits [60:57] (R55). -/
def scaleNd (w : BitVec 61) : BitVec 4 := w.extractLsb' 57 4

/-- The field `pre` of a `SCALE_WORD`, bits [56:0] (R55). -/
def scalePre (w : BitVec 61) : BitVec 57 := w.extractLsb' 0 57

/-- `PAIR_WORD` of keys 0 to 49: `b0` in bits [7:0], `b1` in bits [15:8] (R56, R112). -/
def pairWordsLow : List (BitVec 16) :=
  [0x3030#16, 0x3130#16, 0x3230#16, 0x3330#16, 0x3430#16, 0x3530#16, 0x3630#16, 0x3730#16, 0x3830#16, 0x3930#16,
   0x3031#16, 0x3131#16, 0x3231#16, 0x3331#16, 0x3431#16, 0x3531#16, 0x3631#16, 0x3731#16, 0x3831#16, 0x3931#16,
   0x3032#16, 0x3132#16, 0x3232#16, 0x3332#16, 0x3432#16, 0x3532#16, 0x3632#16, 0x3732#16, 0x3832#16, 0x3932#16,
   0x3033#16, 0x3133#16, 0x3233#16, 0x3333#16, 0x3433#16, 0x3533#16, 0x3633#16, 0x3733#16, 0x3833#16, 0x3933#16,
   0x3034#16, 0x3134#16, 0x3234#16, 0x3334#16, 0x3434#16, 0x3534#16, 0x3634#16, 0x3734#16, 0x3834#16, 0x3934#16]

/-- `PAIR_WORD` of keys 50 to 99 (R56, R112). -/
def pairWordsHigh : List (BitVec 16) :=
  [0x3035#16, 0x3135#16, 0x3235#16, 0x3335#16, 0x3435#16, 0x3535#16, 0x3635#16, 0x3735#16, 0x3835#16, 0x3935#16,
   0x3036#16, 0x3136#16, 0x3236#16, 0x3336#16, 0x3436#16, 0x3536#16, 0x3636#16, 0x3736#16, 0x3836#16, 0x3936#16,
   0x3037#16, 0x3137#16, 0x3237#16, 0x3337#16, 0x3437#16, 0x3537#16, 0x3637#16, 0x3737#16, 0x3837#16, 0x3937#16,
   0x3038#16, 0x3138#16, 0x3238#16, 0x3338#16, 0x3438#16, 0x3538#16, 0x3638#16, 0x3738#16, 0x3838#16, 0x3938#16,
   0x3039#16, 0x3139#16, 0x3239#16, 0x3339#16, 0x3439#16, 0x3539#16, 0x3639#16, 0x3739#16, 0x3839#16, 0x3939#16]

/-- The 100 entries of `PAIR_ROM`, key 0 first (R21, R112). -/
def pairWords : List (BitVec 16) := pairWordsLow ++ pairWordsHigh

/-- A read of `PAIR_ROM`: only keys 0 to 99 are populated (R56, R60, R113). -/
def pairRom (key : Key) : Option (BitVec 16) := pairWords[key.toNat]?

/-- The tens character of a `PAIR_WORD`, bits [7:0] (R56). -/
def pairTens (w : BitVec 16) : Byte := w.extractLsb' 0 8

/-- The ones character of a `PAIR_WORD`, bits [15:8] (R56). -/
def pairOnes (w : BitVec 16) : Byte := w.extractLsb' 8 8

end Sys2Proof.Machine
end

