-- ==== Sys2Proof/Machine/Ops.lean ====
section
/-!
DEFINITION. The named operations over memory, registers and ports that the meanings share: reading and writing `OUT`
(`spec/20_memory.md` R33), what stands on the input ports, emitting one or two digits at the cursor, taking the fault
`BufferTooSmall` (`spec/60_exceptions.md` R134) and ending a call (R136), the reset step (`spec/70_reset_and_hazards.md`
R150, R151), and the fetch of the bytes that select a step's instruction.
-/
namespace Sys2Proof.Machine

/-- What a meaning answers. -/
abbrev Result := Host.Outcome State Fault Refusal

/-- Go on from a next state; a stop stays a stop. -/
def andThen (o : Result) (f : State → Result) : Result :=
  match o with
  | .next s => f s
  | .fault e => .fault e
  | .refused e => .refused e

/-! ### The `OUT` space -/

/-- The canonical form of a memory: addresses strictly rising. An unlisted byte has no value, so no entry can equal it. -/
def Memory.wf : Memory → Bool
  | [] => true
  | a :: rest =>
    match rest with
    | [] => true
    | b :: _ => decide (a.1 < b.1) && Memory.wf rest

/-- The byte at an address, where one is known (log entry 5). -/
def Memory.read (m : Memory) (a : Nat) : Option Byte :=
  match m with
  | [] => none
  | c :: rest => if c.1 = a then some c.2 else Memory.read rest a

/-- The byte at an address becomes `b`. -/
def Memory.write (m : Memory) (a : Nat) (b : Byte) : Memory :=
  match m with
  | [] => [(a, b)]
  | c :: rest => if a < c.1 then (a, b) :: c :: rest else if a = c.1 then (a, b) :: rest else c :: Memory.write rest a b

/-- An address on the `AW` wires of a port: modulo `2^AW` (R33, R36). -/
def wrapAddr (aw : Nat) (a : Nat) : Nat := a % 2 ^ aw

/-- `MemRead(addr, n)`: the inverse of `MemWrite`, for claims and test harnesses; no step uses it (R8, R31). -/
def memRead (aw : Nat) (m : Memory) (addr : Nat) : Nat → List (Option Byte)
  | 0 => []
  | n + 1 => m.read (wrapAddr aw addr) :: memRead aw m (addr + 1) n

/-- `MemWrite`: one beat of the write port is performed in the step that issues it, lane 0 at `wr_addr` and, for
`wr_be = 11`, lane 1 at `wr_addr + 1`, modulo `2^AW` (R33, R40); `wr_be` 00 and 10 do not occur (R60). -/
def memWrite (s : State) (beat : WriteBeat) : Result :=
  if beat.be = 0b01#2 then
    .next { s with out := s.out.write (wrapAddr s.aw beat.addr) beat.lane0, wr := some beat }
  else if beat.be = 0b11#2 then
    .next { s with
      out := (s.out.write (wrapAddr s.aw beat.addr) beat.lane0).write (wrapAddr s.aw (beat.addr + 1)) beat.lane1
      wr := some beat }
  else .fault .byteEnable

/-! ### The input ports -/

/-- `rst = 0`, `req_valid = 0`, no other agent writes. -/
def PortIn.quiet : PortIn := ⟨false, none, []⟩

/-- What stands on the input ports in the coming step; beyond the list everything is quiet (log entry 6). -/
def State.portIn (s : State) : PortIn :=
  match s.inputs with
  | .ports p :: _ => p
  | _ => PortIn.quiet

/-- The operands as the `AW` wires of the request ports carry them (R23, R51; log entry 17). -/
def Request.onWires (aw : Nat) (r : Request) : Request :=
  { r with cursor := wrapAddr aw r.cursor, capacity := wrapAddr aw r.capacity }

/-- The request presented in the coming step (R115). -/
def State.request (s : State) : Option Request := s.portIn.req.map (Request.onWires s.aw)

/-- The stimuli left after a step taken in `s`: the step's own is used up, except that an operation asked for while the
instance is busy is held (R154). -/
def State.inputsAfter (s : State) : List Stimulus :=
  match s.inputs with
  | [] => []
  | .ports _ :: rest => rest
  | .operation w :: rest => if s.phase = Phase.idle then rest else .operation w :: rest

/-- The bytes that other agents write, in order (R45, R155; log entry 15). -/
def foreignWrites (aw : Nat) (m : Memory) : List Host.Cell → Memory
  | [] => m
  | c :: rest => foreignWrites aw (m.write (wrapAddr aw c.1) c.2) rest

/-- What the surroundings do after a step taken in `s` that ended in `t`: the step's stimulus is used up and the other
agents' writes land. -/
def State.settle (s t : State) : State :=
  { t with inputs := s.inputsAfter, out := foreignWrites s.aw t.out s.portIn.foreign }

/-! ### Steps -/

/-- Every step begins with `wr_valid = 0`, `rsp_valid = 0` and the next index of the free values (R116, R150). -/
def State.beginStep (s : State) : State := { s with wr := none, rsp := none, free := s.free + 1 }

/-- `CUR <- (CUR + n) mod 2^AW` and `LEN <- LEN + n` (R33, R36, R91); `LEN` above 10 cannot occur (R144). -/
def advanceCursor (n : Nat) (s : State) : Result :=
  if s.len.toNat + n ≤ Config.maxDigits then
    .next { s with cur := wrapAddr s.aw (s.cur + n), len := s.len + BitVec.ofNat 4 n }
  else .fault .lenAboveTen

/-- Emit one digit at the cursor: `MemWrite(CUR, 1, digit_char(q))` (R91, R93); a digit above 9 cannot occur (R144). Lane 1
of the beat is a free value (U4). -/
def emitDigit (q : Key) (s : State) : Result :=
  if q.toNat ≤ 9 then
    andThen (memWrite s ⟨s.cur, digitChar q, Config.freeLane s.free, 0b01#2⟩) (advanceCursor 1)
  else .fault .digitAboveNine

/-- Emit two digits at the cursor: `MemWrite(CUR, 2, PAIR_ROM[q])` (R91, R92); a key above 99 cannot occur (R144). -/
def emitPair (q : Key) (s : State) : Result :=
  match pairRom q with
  | some w => andThen (memWrite s ⟨s.cur, pairTens w, pairOnes w, 0b11#2⟩) (advanceCursor 2)
  | none => .fault .pairRomKey

/-! ### The fault and the end of a call -/

/-- `raise BufferTooSmall` (R134): `ST <- 1`, `PHASE <- DONE`; nothing is saved and nothing is written. -/
def raiseBufferTooSmall (s : State) : State := { s with st := 1#1, phase := Phase.done }

/-- The request is latched and its capacity checked (R117): `V`, `CUR`, `CAP`, `LEN` are written, then either the fault
is taken or `ST` is `OK` and `PREDICT` follows. -/
def acceptRequest (r : Request) (s : State) : State :=
  let latched := { s.beginStep with v := r.value, cur := r.cursor, cap := r.capacity, len := 0#4 }
  if tooSmall r.capacity then raiseBufferTooSmall latched
  else { latched with st := 0#1, phase := Phase.predict }

/-- The end of a call, successful or not (R118, R136): the response is presented and `PHASE` is `IDLE` again. -/
def endCall (s : State) : State :=
  { s.beginStep with rsp := some ⟨s.cur, s.len, s.st⟩, phase := Phase.idle }

/-! ### Reset -/

/-- A reset step (R150 to R152): no micro-operation, no write, no response; `PHASE` is `IDLE`, every other register holds
a free value (U1; log entry 3), `OUT` is untouched. -/
def State.resetStep (s : State) : State :=
  { s.beginStep with
    phase := Phase.idle
    v := Config.freeV s.free
    cur := wrapAddr s.aw (Config.freeCur s.free)
    cap := wrapAddr s.aw (Config.freeCap s.free)
    ord := Config.freeOrd s.free
    nd := Config.freeNd s.free
    pre := Config.freePre s.free
    frac := Config.freeFrac s.free
    rem := Config.freeRem s.free
    len := Config.freeLen s.free
    st := Config.freeSt s.free }

/-! ### Fetch -/

/-- The bytes that select the coming step's instruction: the request record of an operation asked for while the instance
is ready (R59), otherwise the phase code (R54). -/
def State.fetch (s : State) : List Byte :=
  match s.inputs with
  | .operation w :: _ => if s.phase = Phase.idle then bytesLE (reqBytes s.aw) w else [phaseByte s.phase]
  | _ => [phaseByte s.phase]

/-- The request that stands for an `ACCEPT` placed by `selectPhase`: `ENCODE_U32 0` of R62 (log entry 10). -/
def defaultRequest : Request := ⟨0#32, 0, Config.maxDigits⟩

/-- The sequencer placed at a phase: `PHASE`, quiet input ports (for `IDLE` a request is presented), and the register
contents without which the sequencer never selects that phase: `REM >= 2` at `PAIR`, `REM = 1` at `LAST` (R95), `ND` in
1..10 at `SCALE` (R72). Registers that already agree are kept (log entry 10). -/
def State.selectPhase (p : BitVec 3) (s : State) : State :=
  { s with
    phase := p
    nd := if p = Phase.scale ∧ (s.nd.toNat = 0 ∨ 10 < s.nd.toNat) then 1#4 else s.nd
    rem := if p = Phase.pair ∧ s.rem.toNat < 2 then 2#4 else if p = Phase.last then 1#4 else s.rem
    inputs := .ports ⟨false, if p = Phase.idle then some defaultRequest else none, []⟩ :: s.inputs }

end Sys2Proof.Machine
end

