-- ==== Sys2Proof/Machine/Extractor.lean ====
section
/-!
DEFINITION. The Digit Extractor: micro-operations `LEAD`, `PAIR`, `LAST` (`spec/42_extractor.md` R90 to R95).
-/
namespace Sys2Proof.Machine

/-- `LEAD` (R91): the integer part of `FRAC` is emitted as two digits when `FRAC >= TENS` and as one otherwise; `FRAC`
keeps its fraction; `REM` chooses the next phase. -/
def execLead (s : State) : Result :=
  andThen (if atLeastTens s.frac then emitPair (ipart s.frac) s.beginStep else emitDigit (ipart s.frac) s.beginStep)
    fun t => .next { t with frac := fpart s.frac, phase := afterPhase s.rem }

/-- `PAIR` (R92): `FRAC * 100` is split, its integer part emitted as two digits, its fraction kept; `REM` falls by 2.
`REM` below 2 and a product at or above 2^64 cannot occur (R144, U3). -/
def execPair (s : State) : Result :=
  if 2 ≤ s.rem.toNat then
    match mulExact s.frac.toNat 100 with
    | some p =>
      andThen (emitPair (ipart p) s.beginStep) fun t =>
        .next { t with frac := fpart p, rem := s.rem - 2#4, phase := afterPhase (s.rem - 2#4) }
    | none => .fault .productOverflow
  else .fault .remAtPair

/-- `LAST` (R93): `FRAC * 10` is split, its integer part emitted as one digit; `REM` is 0 and `DONE` follows. `REM` other
than 1 and a product at or above 2^64 cannot occur (R144, U3). -/
def execLast (s : State) : Result :=
  if s.rem.toNat = 1 then
    match mulExact s.frac.toNat 10 with
    | some p =>
      andThen (emitDigit (ipart p) s.beginStep) fun t =>
        .next { t with frac := fpart p, rem := 0#4, phase := Phase.done }
    | none => .fault .productOverflow
  else .fault .remAtLast

end Sys2Proof.Machine
end

