-- ==== Sys2Proof/Machine/Predictor.lean ====
section
/-!
DEFINITION. The Digit-Count Predictor: micro-operation `PREDICT` (`spec/40_predictor.md` R70 to R72).
-/
namespace Sys2Proof.Machine

/-- `PREDICT` (R72): `ORD` is the Order of `V`, `ND` and `PRE` are the fields of its Scale Entry, `SCALE` follows. -/
def execPredict (s : State) : Result :=
  match scaleRom (order s.v) with
  | some w =>
    .next { s.beginStep with ord := order s.v, nd := scaleNd w, pre := scalePre w, phase := Phase.scale }
  | none => .fault .scaleRomAddress

end Sys2Proof.Machine
end

