-- ==== Sys2Proof/Machine/Scaler.lean ====
section
/-!
DEFINITION. The Fixed-Point Scaler: micro-operation `SCALE` (`spec/41_scaler.md` R80 to R83, R88).
-/
namespace Sys2Proof.Machine

/-- `SCALE` (R81): `FRAC` is `(V + 1) * PRE` plus the correction of R82, added once; `REM` is `rem0(ND)`; `LEAD` follows.
`ND` outside 1..10 and a product at or above 2^64 cannot occur (R144). -/
def execScale (s : State) : Result :=
  if 1 ≤ s.nd.toNat ∧ s.nd.toNat ≤ 10 then
    match mulExact (plusOne s.v).toNat s.pre.toNat with
    | some t => .next { s.beginStep with frac := t + correction t s.v, rem := rem0 s.nd, phase := Phase.lead }
    | none => .fault .productOverflow
  else .fault .ndOutOfRange

end Sys2Proof.Machine
end

