-- ==== Sys2Proof/Machine/Sequencer.lean ====
section
/-!
DEFINITION. The operation and its sequencing: `ACCEPT`, `DONE` and `ENCODE_U32` (`spec/44_sequencer.md` R115 to R122).
-/
namespace Sys2Proof.Machine

/-- `ACCEPT` (R117): the request presented is latched and its capacity checked. With `req_valid = 0` the step is the idle
step and changes no register (R116; log entry 20). -/
def execAccept (s : State) : Result :=
  match s.request with
  | some r => .next (acceptRequest r s)
  | none => .next s.beginStep

/-- `DONE` (R118): the response is presented and `PHASE` is `IDLE` again. `LEN` above 10 cannot occur (R144). -/
def execDone (s : State) : Result :=
  if s.len.toNat ≤ Config.maxDigits then .next (endCall s) else .fault .lenAboveTen

/-- `PAIR`, `n` times: the part `PAIR x p` of R119. -/
def repeatPair : Nat → State → Result
  | 0, s => .next s
  | n + 1, s => andThen (execPair s) (repeatPair n)

/-- The part of an accepted call that follows `PREDICT`'s selection, in the order of R119:
`PREDICT, SCALE, LEAD, PAIR x p, LAST x l, DONE` with `p` and `l` from `REM`. -/
def finishCall (s : State) : Result :=
  andThen (execPredict s) fun predicted =>
  andThen (execScale predicted) fun scaled =>
  andThen (execLead scaled) fun led =>
  andThen (repeatPair (led.rem.toNat / 2) led) fun paired =>
  andThen (if paired.rem.toNat = 1 then execLast paired else .next paired) execDone

/-- `ENCODE_U32 value, cursor, capacity` (R121), by its normative stepwise definition (R119): the request is accepted and
the call carried out to its `DONE`; a capacity below 10 gives `ACCEPT, DONE` (R134). While the instance is busy the
request is not accepted and has no effect (R154; log entry 8). -/
def execEncodeU32 (value : Value) (cursor capacity : Nat) (s : State) : Result :=
  if s.phase = Phase.idle then
    let accepted := acceptRequest (Request.onWires s.aw ⟨value, cursor, capacity⟩) s
    if accepted.phase = Phase.done then execDone accepted else finishCall accepted
  else .next s.beginStep

/-- The loop and the trailing step of R122: `rem` digits from the fraction `frac`. -/
def extractDigits : Nat → Nat → List Byte
  | 0, _ => []
  | 1, frac => [digitChar (BitVec.ofNat 7 (frac * 10 / Config.unit))]
  | n + 2, frac =>
    match pairRom (BitVec.ofNat 7 (frac * 100 / Config.unit)) with
    | some w => pairTens w :: pairOnes w :: extractDigits n (frac * 100 % Config.unit)
    | none => []

/-- `encode_digits(v)`: the datapath as one function (R122), for claims; no step uses it. -/
def encodeDigits (v : Value) : List Byte :=
  match scaleRom (order v) with
  | none => []
  | some w =>
    let product := (plusOne v).toNat * (scalePre w).toNat
    let frac := product + (if Config.tens ≤ product then v.toNat / 2 else 0)
    let rest := extractDigits (rem0 (scaleNd w)).toNat (frac % Config.unit)
    if Config.tens ≤ frac then
      match pairRom (BitVec.ofNat 7 (frac / Config.unit)) with
      | some p => pairTens p :: pairOnes p :: rest
      | none => []
    else digitChar (BitVec.ofNat 7 (frac / Config.unit)) :: rest

end Sys2Proof.Machine
end

