-- ==== Sys2Proof/Machine/Dispatch.lean ====
section
/-!
DEFINITION. The meaning of every instruction: one arm for each row of `spec/opcode_table.json`.
-/
namespace Sys2Proof.Machine

-- The step selects the instruction (spec/30_encoding.md R54, R59); exec gives its effect.
def exec (i : Instr) (s : State) : Host.Outcome State Fault Refusal :=
  match i with
  | .encodeU32 value cursor capacity => Sys2Proof.Machine.execEncodeU32 value cursor capacity s
  | .accept => Sys2Proof.Machine.execAccept s
  | .predict => Sys2Proof.Machine.execPredict s
  | .scale => Sys2Proof.Machine.execScale s
  | .lead => Sys2Proof.Machine.execLead s
  | .pair => Sys2Proof.Machine.execPair s
  | .last => Sys2Proof.Machine.execLast s
  | .done => Sys2Proof.Machine.execDone s

end Sys2Proof.Machine
end

