-- ==== Sys2Proof/Machine/Ports.lean ====
section
/-!
DEFINITION. The output signals of `spec/10_state.md` R23 as wires, in the step just taken, and the packed forms of the
response and of a write beat (`spec/30_encoding.md` R52, R53). A wire that means nothing carries a free value (U5).
-/
namespace Sys2Proof.Machine

/-- `req_ready`: 1 exactly when `PHASE = IDLE` (R23, R154). -/
def State.reqReady (s : State) : Bool := s.phase == Phase.idle

/-- `wr_valid` (R23). -/
def State.wrValid (s : State) : Bool := s.wr.isSome

/-- `wr_addr` (R23); free while `wr_valid = 0` (U5). -/
def State.wrAddr (s : State) : Nat :=
  match s.wr with
  | some b => wrapAddr s.aw b.addr
  | none => wrapAddr s.aw (Config.freeWrAddr s.free)

/-- `wr_data`: lane 1 in bits [15:8], lane 0 in bits [7:0] (R23, R32); free while `wr_valid = 0` (U5). -/
def State.wrData (s : State) : BitVec 16 :=
  match s.wr with
  | some b => b.lane1 ++ b.lane0
  | none => Config.freeWrData s.free

/-- `wr_be` (R23); free while `wr_valid = 0` (U5). -/
def State.wrBe (s : State) : BitVec 2 :=
  match s.wr with
  | some b => b.be
  | none => Config.freeWrBe s.free

/-- `rsp_valid` (R23). -/
def State.rspValid (s : State) : Bool := s.rsp.isSome

/-- `rsp_cursor` (R23); free while `rsp_valid = 0` (U5). -/
def State.rspCursor (s : State) : Nat :=
  match s.rsp with
  | some r => wrapAddr s.aw r.cursor
  | none => wrapAddr s.aw (Config.freeRspCursor s.free)

/-- `rsp_len` (R23); free while `rsp_valid = 0` (U5). -/
def State.rspLen (s : State) : BitVec 4 :=
  match s.rsp with
  | some r => r.len
  | none => Config.freeRspLen s.free

/-- `rsp_status` (R23); free while `rsp_valid = 0` (U5). -/
def State.rspStatus (s : State) : BitVec 1 :=
  match s.rsp with
  | some r => r.status
  | none => Config.freeRspStatus s.free

/-- Format `RSP`, `AW + 5` bits: cursor [AW-1:0], len [AW+3:AW], status [AW+4] (R52). -/
def Response.pack (aw : Nat) (r : Response) : Nat :=
  wrapAddr aw r.cursor + r.len.toNat * 2 ^ aw + r.status.toNat * 2 ^ (aw + 4)

/-- Format `WR`, `AW + 18` bits: addr [AW-1:0], lane0 [AW+7:AW], lane1 [AW+15:AW+8], be [AW+17:AW+16] (R53). -/
def WriteBeat.pack (aw : Nat) (b : WriteBeat) : Nat :=
  wrapAddr aw b.addr + b.lane0.toNat * 2 ^ aw + b.lane1.toNat * 2 ^ (aw + 8) + b.be.toNat * 2 ^ (aw + 16)

end Sys2Proof.Machine
end

