-- ==== Sys2Proof/Machine/Step.lean ====
section
/-!
DEFINITION. One step (`spec/44_sequencer.md` R115): reset wins over everything (`spec/70_reset_and_hazards.md` R150, D26);
otherwise the bytes that select the step's instruction are fetched and decoded, the instruction is executed, and the
surroundings settle. The host's `withFetchWord` places an instruction where the step fetches its next one.
-/
namespace Sys2Proof.Machine

/-- One step of the instance (R115, R150). -/
def step (s : State) : Host.Outcome State Fault Refusal :=
  if s.portIn.rst then .next (s.settle s.resetStep)
  else
    match decode s.aw s.fetch with
    | .ok i => andThen (exec i s) fun t => .next (s.settle t)
    | .error e => .fault (.undecodable e)

/-- `s` with a table word placed where the next step fetches its instruction: a `PHASE` row in the sequencer, the row
`ENCODE_U32` as an operation the caller asks for, with `PHASE = IDLE` (log entries 9 and 10). -/
def State.withFetchWord (s : State) (nbits w : Nat) : State :=
  if nbits ≤ 8 then s.selectPhase (BitVec.ofNat 3 (w % 2 ^ nbits))
  else { s with phase := Phase.idle, inputs := .operation (w % 2 ^ nbits) :: s.inputs }

end Sys2Proof.Machine
end

