-- ==== Sys2Proof/Safety.lean ====
section
/-!
DEFINITION. The terms that claims about QD-CORE use: the canonical decimal form of a Value (`spec/00_scope.md` R8), the
Scale Entry of a Value, the invariant of a call (`spec/41_scaler.md` R85, `spec/42_extractor.md` R96 to R98), what stands
in the buffer during a call (`spec/70_reset_and_hazards.md` R156), and safe runs.
-/
namespace Sys2Proof.Machine

/-- `ndigits(v)`: 1 for 0, otherwise `floor(log10(v)) + 1` (R8). -/
def ndigits (v : Nat) : Nat := if v = 0 then 1 else Nat.log 10 v + 1

/-- The ASCII character of a decimal digit (R57). -/
def asciiDigit (d : Nat) : Byte := BitVec.ofNat 8 (0x30 + d)

/-- `dec(v)`: the canonical decimal ASCII string of `v`, most significant digit first, "0" for 0 (R8). -/
def dec (v : Nat) : List Byte := if v = 0 then [asciiDigit 0] else (Nat.digits 10 v).reverse.map asciiDigit

/-- The largest Value of the bucket of Order `k` (R73). -/
def largestOfBucket (k : Nat) : Nat := if k = 0 then 2 ^ 32 - 1 else 2 ^ (33 - k) - 2

/-- `v` belongs to the bucket of Order `k`: `2^(32-k) <= v + 1 < 2^(33-k)` (R76). -/
def inBucket (k v : Nat) : Prop := 2 ^ (32 - k) ≤ v + 1 ∧ v + 1 < 2 ^ (33 - k)

/-- `ND_k` by rule R73: the digit count of the largest Value of the bucket. -/
def bucketNd (k : Nat) : Nat := ndigits (largestOfBucket k)

/-- `f_k = max(ND_k - 2, 0)` (R74). -/
def bucketExp (k : Nat) : Nat := bucketNd k - 2

/-- `PRE_k` by rule R74: `(2*UNIT - 10^f) div (2 * 10^f)`. -/
def bucketPre (k : Nat) : Nat := (2 * Config.unit - 10 ^ bucketExp k) / (2 * 10 ^ bucketExp k)

/-- `nd` and `pre` are the two fields of the Scale Entry of the Order of `v` (R72). -/
def isEntry (v : Value) (nd : BitVec 4) (pre : BitVec 57) : Prop :=
  ∃ w, scaleRom (order v) = some w ∧ nd = scaleNd w ∧ pre = scalePre w

/-- `PREDICT`'s registers hold what it writes for `V` (R72). -/
def predictedOk (s : State) : Prop := s.ord = order s.v ∧ isEntry s.v s.nd s.pre

/-- With `r` digits of `v` outstanding, the fraction `frac` carries exactly them (R85, R98). -/
def carriesDigits (v r frac : Nat) : Prop :=
  v % 10 ^ r * Config.unit ≤ frac * 10 ^ r ∧ frac * 10 ^ r < (v % 10 ^ r + 1) * Config.unit

/-- The accumulator as the Scaler leaves it for `v` with `f` digits after the lead step (R85). -/
def scaledOk (v f frac : Nat) : Prop :=
  v * Config.unit ≤ frac * 10 ^ f ∧ frac * 10 ^ f < (v + 1) * Config.unit

/-- A call that was accepted without a fault and has written nothing (R117). -/
def acceptedOk (s : State) : Prop := s.st = 0#1 ∧ s.len = 0#4 ∧ Config.maxDigits ≤ s.cap

/-- A call between two digits of the extraction: `LEN` written, `REM` outstanding, together the digit count (R96). -/
def extractingOk (s : State) : Prop :=
  s.st = 0#1 ∧ Config.maxDigits ≤ s.cap ∧ predictedOk s ∧ s.frac.toNat < Config.unit ∧ 1 ≤ s.len.toNat ∧
  s.len.toNat + s.rem.toNat = ndigits s.v.toNat ∧ carriesDigits s.v.toNat s.rem.toNat s.frac.toNat

/-- What holds of the registers in each phase of a call. -/
def callInv (s : State) : Prop :=
  (s.phase = Phase.predict → acceptedOk s) ∧
  (s.phase = Phase.scale → acceptedOk s ∧ predictedOk s) ∧
  (s.phase = Phase.lead → acceptedOk s ∧ predictedOk s ∧ s.rem = rem0 s.nd ∧
    scaledOk s.v.toNat s.rem.toNat s.frac.toNat) ∧
  (s.phase = Phase.pair → extractingOk s ∧ 2 ≤ s.rem.toNat) ∧
  (s.phase = Phase.last → extractingOk s ∧ s.rem.toNat = 1) ∧
  (s.phase = Phase.done →
    (s.st = 1#1 ∧ s.len = 0#4 ∧ s.cap < Config.maxDigits) ∨
    (s.st = 0#1 ∧ Config.maxDigits ≤ s.cap ∧ s.len.toNat = ndigits s.v.toNat))

/-- The invariant of the machine: legal widths, a canonical memory inside the address space, a phase that is not the
reserved one, and the invariant of the call in progress. -/
def inv (s : State) : Prop :=
  awLegal s.aw = true ∧ fitsAddr s.aw s.cur = true ∧ fitsAddr s.aw s.cap = true ∧
  s.out.wf = true ∧ (∀ c ∈ s.out, fitsAddr s.aw c.1 = true) ∧ s.phase ≠ 0b111#3 ∧ callInv s

/-- The cursor the call in progress started from: `CUR` less the bytes written, modulo `2^AW` (R96). -/
def callStart (s : State) : Nat := wrapAddr s.aw (s.cur + 2 ^ s.aw - s.len.toNat)

/-- During a call without fault the bytes written so far are the leading `LEN` bytes of `dec(V)`, from the starting
cursor on (R156). -/
def prefixWritten (s : State) : Prop :=
  s.phase ≠ Phase.idle → s.st = 0#1 →
    memRead s.aw s.out (callStart s) s.len.toNat = ((dec s.v.toNat).take s.len.toNat).map some

/-- No other agent writes the ten bytes from the starting cursor in the coming step: the ownership of R45 and R155. -/
def bufferOwned (s : State) : Prop :=
  ∀ c ∈ s.portIn.foreign, ∀ i < Config.maxDigits, wrapAddr s.aw c.1 ≠ wrapAddr s.aw (callStart s + i)

/-- The machine never stops: every number of steps ends in a next state. -/
def neverStops (s : State) : Prop := ∀ k, ∃ t, Host.Core.run Sys2Proof.core k s = .next t

/-- The phase that follows when `r` digits remain: QD's "loop while more than one digit remains" (R95). -/
def phaseFor (r : Nat) : BitVec 3 := if 2 ≤ r then Phase.pair else if r = 1 then Phase.last else Phase.done

/-- The bytes a micro-operation writes at the cursor: two or one for `LEAD` (R91), two for `PAIR` (R92), one for `LAST`
(R93), none for the others (R33). Of the operation `ENCODE_U32` other statements speak. -/
def bytesEmitted (i : Instr) (s : State) : Nat :=
  match i with
  | .encodeU32 _ _ _ => 0
  | .accept => 0
  | .predict => 0
  | .scale => 0
  | .lead => if Config.tens ≤ s.frac.toNat then 2 else 1
  | .pair => 2
  | .last => 1
  | .done => 0

/-- `i` is one of the seven micro-operations (R59). -/
def isMicroOp (i : Instr) : Prop := ∀ value cursor capacity, i ≠ .encodeU32 value cursor capacity

/-- The steps of a call from `ACCEPT` to `DONE` by outcome (R160): 2 on `BufferTooSmall`, else by `ND`. -/
def callSteps (capacity nd : Nat) : Nat :=
  if capacity < Config.maxDigits then 2 else 5 + (nd - 2) / 2 + (nd - 2) % 2

end Sys2Proof.Machine
end

