-- ==== Sys2Proof/Certificates/Slice0/Obligations.lean ====
section
/-!
DEFINITION. The statements about QD-CORE for the provers. Each is about the machine and holds for every state, operand
and `AW` that meets its hypotheses; R<n> are the numbered rules of `spec/`. -/
open Sys2Proof Sys2Proof.Machine

/-! ### Encodings -/

/-- Decoding the bytes of a well-formed instruction gives it back, for every `AW` the spec allows (R51, R54). How bytes
carry a format is the model's choice, log entry 11. -/
def Obligations.DecodeEncodeAgree : Prop :=
  ∀ (aw : Nat) (i : Instr), awLegal aw = true → i.wellFormed aw = true → decode aw (encode aw i) = .ok i

/-- Where a request record fills its bytes, every pattern of it is a request, and encoding that request gives the pattern
back: no bit of the record is dropped (R51, R60). How bytes carry a format is the model's choice, log entry 11. -/
def Obligations.EveryRequestRecordRoundTrips : Prop :=
  ∀ (aw : Nat) (bytes : List Byte), awLegal aw = true → reqBits aw % 8 = 0 → bytes.length = reqBytes aw →
    ∃ i, decode aw bytes = .ok i ∧ i.wellFormed aw = true ∧ encode aw i = bytes

/-- Words written out from R51 and R54 decode to the rows they stand for; the reserved phase code decodes to nothing. The
record is `ENCODE_U32 7, 0x100, 10` of section 5 of the test vectors. How bytes carry a format is the model's choice, log
entry 11. -/
def Obligations.SpecWordsDecode : Prop :=
  decode 32 [0x07#8, 0x00#8, 0x00#8, 0x00#8, 0x00#8, 0x01#8, 0x00#8, 0x00#8, 0x0A#8, 0x00#8, 0x00#8, 0x00#8]
      = .ok (.encodeU32 7#32 0x100 10) ∧
    decode 32 [0b000#8] = .ok .accept ∧ decode 32 [0b001#8] = .ok .predict ∧ decode 32 [0b010#8] = .ok .scale ∧
    decode 32 [0b011#8] = .ok .lead ∧ decode 32 [0b100#8] = .ok .pair ∧ decode 32 [0b101#8] = .ok .last ∧
    decode 32 [0b110#8] = .ok .done ∧ decode 32 [0b111#8] = .error .reservedPhase

/-- The packed response and write beat hold each field at the bits of R52 and R53. -/
def Obligations.PackedRecordsHoldTheirFields : Prop :=
  (∀ (aw : Nat) (r : Response), fitsAddr aw r.cursor = true →
    r.pack aw % 2 ^ aw = r.cursor ∧ r.pack aw / 2 ^ aw % 2 ^ 4 = r.len.toNat ∧
    r.pack aw / 2 ^ (aw + 4) = r.status.toNat) ∧
  (∀ (aw : Nat) (b : WriteBeat), fitsAddr aw b.addr = true →
    b.pack aw % 2 ^ aw = b.addr ∧ b.pack aw / 2 ^ aw % 2 ^ 8 = b.lane0.toNat ∧
    b.pack aw / 2 ^ (aw + 8) % 2 ^ 8 = b.lane1.toNat ∧ b.pack aw / 2 ^ (aw + 16) = b.be.toNat)

/-! ### The constant tables -/

/-- The words of `SCALE_ROM` satisfy the formulas of R73 and R74, and only addresses 0 to 32 are populated (R55). -/
def Obligations.ScaleRomFollowsItsFormulas : Prop :=
  ∀ k : BitVec 6,
    (k.toNat ≤ 32 → ∃ w, scaleRom k = some w ∧ (scaleNd w).toNat = bucketNd k.toNat ∧
      (scalePre w).toNat = bucketPre k.toNat) ∧
    (32 < k.toNat → scaleRom k = none)

/-- The words of `PAIR_ROM` are the two ASCII characters of their key, `{b1, b0}` (R111), and only keys 0 to 99 are
populated (R56). The character values are the spec's general knowledge, log entry 16. -/
def Obligations.PairRomHoldsTheTwoCharacters : Prop :=
  ∀ k : Key,
    (k.toNat ≤ 99 → ∃ w, pairRom k = some w ∧ (pairTens w).toNat = 0x30 + k.toNat / 10 ∧
      (pairOnes w).toNat = 0x30 + k.toNat % 10 ∧ w = pairOnes w ++ pairTens w) ∧
    (99 < k.toNat → pairRom k = none)

/-! ### The Digit-Count Predictor -/

/-- Each Order is selected exactly by the Values of its bucket, and the 33 buckets partition all Values (R76). -/
def Obligations.OrderSelectsItsBucket : Prop :=
  ∀ v : Value,
    (order v).toNat ≤ 32 ∧
    (∀ k, 1 ≤ k → k ≤ 32 → ((order v).toNat = k ↔ 2 ^ (32 - k) - 1 ≤ v.toNat ∧ v.toNat ≤ 2 ^ (33 - k) - 2)) ∧
    ((order v).toNat = 0 ↔ v.toNat = 2 ^ 32 - 1)

/-- `PREDICT` completes in every state and writes the Order of the bucket of `V`, its digit count by R73 and its prescale by
R74; everything else of the machine is as before (R72). -/
def Obligations.PredictWritesTheScaleEntry : Prop :=
  ∀ (s : State) (k : Nat), k ≤ 32 → inBucket k s.v.toNat →
    exec .predict s = .next { s with
      ord := BitVec.ofNat 6 k
      nd := BitVec.ofNat 4 (bucketNd k)
      pre := BitVec.ofNat 57 (bucketPre k)
      phase := Phase.scale
      wr := none
      rsp := none
      free := s.free + 1 }

/-- What the Predictor guarantees to the later stages (R79). -/
def Obligations.PredictorGuarantees : Prop :=
  ∀ (v : Value) (nd : BitVec 4) (pre : BitVec 57), isEntry v nd pre →
    (ndigits v.toNat = nd.toNat ∨
      (ndigits v.toNat = nd.toNat - 1 ∧ v.toNat < 10 ^ (nd.toNat - 1) ∧
        (order v).toNat ∈ [3, 6, 9, 13, 16, 19, 23, 26, 29])) ∧
    (2 ≤ nd.toNat → 10 ^ (nd.toNat - 2) ≤ v.toNat ∧ v.toNat < 10 ^ (nd.toNat - 2 + 2)) ∧
    (nd.toNat = 1 → v.toNat ≤ 6) ∧
    ndigits v.toNat = if v.toNat < 10 ^ (nd.toNat - 2 + 1) then nd.toNat - 2 + 1 else nd.toNat - 2 + 2

/-! ### The Fixed-Point Scaler -/

/-- `SCALE` completes whenever `ND` is in 1..10 and the product fits in 64 bits: `FRAC` is the 64-bit sum of the product
and the correction, which is half of `V` at or above `TENS` and 0 below, and `REM` is `ND - 2`, at least 0 (R81 to R83).
The sum keeps 64 bits also where no run reaches, log entry 13. -/
def Obligations.ScaleComputesTheProduct : Prop :=
  ∀ s : State, 1 ≤ s.nd.toNat → s.nd.toNat ≤ 10 → (s.v.toNat + 1) * s.pre.toNat < 2 ^ 64 →
    exec .scale s = .next { s with
      frac := BitVec.ofNat 64 ((s.v.toNat + 1) * s.pre.toNat +
        if 10 * 2 ^ 57 ≤ (s.v.toNat + 1) * s.pre.toNat then s.v.toNat / 2 else 0)
      rem := BitVec.ofNat 4 (s.nd.toNat - 2)
      phase := Phase.lead
      wr := none
      rsp := none
      free := s.free + 1 }

/-- `SCALE` stops on `ND` outside 1..10 and on a product at or above 2^64 (R144). Where these conditions are checked is
log entry 12. -/
def Obligations.ScaleStopsOutsideItsDomain : Prop :=
  ∀ s : State,
    (s.nd.toNat = 0 ∨ 10 < s.nd.toNat → exec .scale s = .fault .ndOutOfRange) ∧
    (1 ≤ s.nd.toNat → s.nd.toNat ≤ 10 → 2 ^ 64 ≤ (s.v.toNat + 1) * s.pre.toNat →
      exec .scale s = .fault .productOverflow)

/-- The Scaler's postcondition (R85): with the Scale Entry of `V`, `SCALE` leaves `FRAC / UNIT` in `[v/10^f, (v+1)/10^f)`,
so that its integer part and its next `f` decimal digits are the digits of `V`. -/
def Obligations.ScalerPostcondition : Prop :=
  ∀ s : State, isEntry s.v s.nd s.pre →
    ∃ t, exec .scale s = .next t ∧ t.rem.toNat = s.nd.toNat - 2 ∧
      s.v.toNat * Config.unit ≤ t.frac.toNat * 10 ^ t.rem.toNat ∧
      t.frac.toNat * 10 ^ t.rem.toNat < (s.v.toNat + 1) * Config.unit ∧
      ∀ j ≤ t.rem.toNat, t.frac.toNat * 10 ^ j / Config.unit = s.v.toNat / 10 ^ (t.rem.toNat - j)

/-- No overflow (R84): for every Value the exact product and the exact sum stay below `100 * UNIT`, and the largest sum over
all Values is 12089256754993918409, reached at 8388606. -/
def Obligations.ScalerNeverOverflows : Prop :=
  (∀ (v : Value) (nd : BitVec 4) (pre : BitVec 57), isEntry v nd pre →
    (v.toNat + 1) * pre.toNat < 100 * Config.unit ∧
    (v.toNat + 1) * pre.toNat + (if Config.tens ≤ (v.toNat + 1) * pre.toNat then v.toNat / 2 else 0)
      ≤ 12089256754993918409) ∧
  (∀ (nd : BitVec 4) (pre : BitVec 57), isEntry 8388606#32 nd pre →
    (8388606 + 1) * pre.toNat + 8388606 / 2 = 12089256754993918409 ∧ Config.tens ≤ (8388606 + 1) * pre.toNat)

/-- The correction is necessary (R87): without it the accumulator falls below `V` exactly for the Values from 1899855400
upward, all of which are at or above `TENS`. -/
def Obligations.CorrectionIsNecessary : Prop :=
  ∀ (v : Value) (nd : BitVec 4) (pre : BitVec 57), isEntry v nd pre →
    ((v.toNat + 1) * pre.toNat * 10 ^ (nd.toNat - 2) < v.toNat * Config.unit ↔ 1899855400 ≤ v.toNat) ∧
    (1899855400 ≤ v.toNat → Config.tens ≤ (v.toNat + 1) * pre.toNat)

/-! ### The Digit Extractor -/

/-- `LEAD`, pair branch: `FRAC` in `[TENS, 100 * UNIT)` and `LEN` at most 8 (R91). The character values are the spec's
general knowledge, log entry 16. -/
def Obligations.LeadEmitsTwoDigits : Prop :=
  ∀ s : State, Config.tens ≤ s.frac.toNat → s.frac.toNat < 100 * Config.unit → s.len.toNat ≤ 8 →
    exec .lead s = .next { s with
      out := (s.out.write (s.cur % 2 ^ s.aw) (asciiDigit (s.frac.toNat / Config.unit / 10))).write
        ((s.cur + 1) % 2 ^ s.aw) (asciiDigit (s.frac.toNat / Config.unit % 10))
      wr := some ⟨s.cur, asciiDigit (s.frac.toNat / Config.unit / 10), asciiDigit (s.frac.toNat / Config.unit % 10), 0b11#2⟩
      cur := (s.cur + 2) % 2 ^ s.aw
      len := BitVec.ofNat 4 (s.len.toNat + 2)
      frac := BitVec.ofNat 64 (s.frac.toNat % Config.unit)
      phase := phaseFor s.rem.toNat
      rsp := none
      free := s.free + 1 }

/-- `LEAD`, single branch: `FRAC` below `TENS` and `LEN` at most 9. Lane 1 of the beat is a free value (R91, R33). The
character values are the spec's general knowledge, log entry 16. -/
def Obligations.LeadEmitsOneDigit : Prop :=
  ∀ s : State, s.frac.toNat < Config.tens → s.len.toNat ≤ 9 →
    ∃ lane1, exec .lead s = .next { s with
      out := s.out.write (s.cur % 2 ^ s.aw) (asciiDigit (s.frac.toNat / Config.unit))
      wr := some ⟨s.cur, asciiDigit (s.frac.toNat / Config.unit), lane1, 0b01#2⟩
      cur := (s.cur + 1) % 2 ^ s.aw
      len := BitVec.ofNat 4 (s.len.toNat + 1)
      frac := BitVec.ofNat 64 (s.frac.toNat % Config.unit)
      phase := phaseFor s.rem.toNat
      rsp := none
      free := s.free + 1 }

/-- `PAIR` completes with `REM >= 2`, `FRAC < UNIT` and `LEN` at most 8 (R92). The character values are the spec's general
knowledge, log entry 16. -/
def Obligations.PairEmitsTwoDigits : Prop :=
  ∀ s : State, 2 ≤ s.rem.toNat → s.frac.toNat < Config.unit → s.len.toNat ≤ 8 →
    exec .pair s = .next { s with
      out := (s.out.write (s.cur % 2 ^ s.aw) (asciiDigit (s.frac.toNat * 100 / Config.unit / 10))).write
        ((s.cur + 1) % 2 ^ s.aw) (asciiDigit (s.frac.toNat * 100 / Config.unit % 10))
      wr := some ⟨s.cur, asciiDigit (s.frac.toNat * 100 / Config.unit / 10),
        asciiDigit (s.frac.toNat * 100 / Config.unit % 10), 0b11#2⟩
      cur := (s.cur + 2) % 2 ^ s.aw
      len := BitVec.ofNat 4 (s.len.toNat + 2)
      frac := BitVec.ofNat 64 (s.frac.toNat * 100 % Config.unit)
      rem := BitVec.ofNat 4 (s.rem.toNat - 2)
      phase := phaseFor (s.rem.toNat - 2)
      rsp := none
      free := s.free + 1 }

/-- `LAST` completes with `REM = 1`, `FRAC < UNIT` and `LEN` at most 9. Lane 1 of the beat is a free value (R93, R33). The
character values are the spec's general knowledge, log entry 16. -/
def Obligations.LastEmitsOneDigit : Prop :=
  ∀ s : State, s.rem.toNat = 1 → s.frac.toNat < Config.unit → s.len.toNat ≤ 9 →
    ∃ lane1, exec .last s = .next { s with
      out := s.out.write (s.cur % 2 ^ s.aw) (asciiDigit (s.frac.toNat * 10 / Config.unit))
      wr := some ⟨s.cur, asciiDigit (s.frac.toNat * 10 / Config.unit), lane1, 0b01#2⟩
      cur := (s.cur + 1) % 2 ^ s.aw
      len := BitVec.ofNat 4 (s.len.toNat + 1)
      frac := BitVec.ofNat 64 (s.frac.toNat * 10 % Config.unit)
      rem := 0#4
      phase := Phase.done
      rsp := none
      free := s.free + 1 }

/-- The Extractor stops on each condition of R144 that it can meet: `REM` inconsistent with the phase; a product at or above
2^64; below that a key above 99 (`LEAD`, `PAIR`) or a digit above 9 (`LAST`); and `LEN` that would pass 10, in each of the
four forms of emission. Where these conditions are checked is log entry 12. -/
def Obligations.ExtractorStopsOutsideItsDomain : Prop :=
  ∀ s : State,
    (s.rem.toNat < 2 → exec .pair s = .fault .remAtPair) ∧
    (s.rem.toNat ≠ 1 → exec .last s = .fault .remAtLast) ∧
    (2 ≤ s.rem.toNat → 2 ^ 64 ≤ s.frac.toNat * 100 → exec .pair s = .fault .productOverflow) ∧
    (s.rem.toNat = 1 → 2 ^ 64 ≤ s.frac.toNat * 10 → exec .last s = .fault .productOverflow) ∧
    (100 * Config.unit ≤ s.frac.toNat → exec .lead s = .fault .pairRomKey) ∧
    (2 ≤ s.rem.toNat → Config.unit ≤ s.frac.toNat → s.frac.toNat * 100 < 2 ^ 64 →
      exec .pair s = .fault .pairRomKey) ∧
    (s.rem.toNat = 1 → Config.unit ≤ s.frac.toNat → s.frac.toNat * 10 < 2 ^ 64 →
      exec .last s = .fault .digitAboveNine) ∧
    (Config.tens ≤ s.frac.toNat → s.frac.toNat < 100 * Config.unit → 8 < s.len.toNat →
      exec .lead s = .fault .lenAboveTen) ∧
    (s.frac.toNat < Config.tens → 9 < s.len.toNat → exec .lead s = .fault .lenAboveTen) ∧
    (2 ≤ s.rem.toNat → s.frac.toNat < Config.unit → 8 < s.len.toNat → exec .pair s = .fault .lenAboveTen) ∧
    (s.rem.toNat = 1 → s.frac.toNat < Config.unit → 9 < s.len.toNat → exec .last s = .fault .lenAboveTen)

/-- Lead-step agreement (R97): `SCALE` with the Scale Entry of `v`, then `LEAD`. With `f = rem0(ND)`, `LEAD` takes the pair
branch exactly when `v >= 10^(f+1)`, and the digits it emits are those of `q = v div 10^f`: both lanes of a two-byte beat in
the pair branch, lane 0 of a one-byte beat in the other. The character values are the spec's general knowledge, log entry
16. -/
def Obligations.LeadStepAgreesWithTheValue : Prop :=
  ∀ s : State, isEntry s.v s.nd s.pre → s.len.toNat ≤ 8 →
    ∃ t u b, exec .scale s = .next t ∧ exec .lead t = .next u ∧ u.wr = some b ∧ b.addr = s.cur ∧
      (b.be = 0b11#2 ↔ 10 ^ ((rem0 s.nd).toNat + 1) ≤ s.v.toNat) ∧
      (b.be = 0b01#2 ↔ s.v.toNat < 10 ^ ((rem0 s.nd).toNat + 1)) ∧
      (b.be = 0b11#2 →
        b.lane0 = asciiDigit (s.v.toNat / 10 ^ (rem0 s.nd).toNat / 10) ∧
        b.lane1 = asciiDigit (s.v.toNat / 10 ^ (rem0 s.nd).toNat % 10) ∧ u.len.toNat = s.len.toNat + 2) ∧
      (b.be = 0b01#2 →
        b.lane0 = asciiDigit (s.v.toNat / 10 ^ (rem0 s.nd).toNat) ∧ u.len.toNat = s.len.toNat + 1)

/-- The tens character goes to the lower address and the ones character to the next one (R32): after `PAIR` the two bytes
at the cursor read as the two digits of the key. The character values are the spec's general knowledge, log entry 16. -/
def Obligations.TensCharacterAtTheLowerAddress : Prop :=
  ∀ s t : State, awLegal s.aw = true → exec .pair s = .next t →
    memRead t.aw t.out s.cur 2 =
      [some (asciiDigit (s.frac.toNat * 100 / Config.unit / 10)), some (asciiDigit (s.frac.toNat * 100 / Config.unit % 10))]

/-- After every step of the Extractor the accumulator is a fraction below `UNIT` (R14). -/
def Obligations.ExtractorLeavesAFraction : Prop :=
  ∀ s t : State, exec .lead s = .next t ∨ exec .pair s = .next t ∨ exec .last s = .next t → t.frac.toNat < Config.unit

/-! ### Frames and ports of the micro-operations -/

/-- The frame of every micro-operation (R12 to R16): each register keeps its value unless the micro-operation is one that
the register's rule names as its writer. -/
def Obligations.RegistersHaveTheirWritersOnly : Prop :=
  ∀ (i : Instr) (s t : State), isMicroOp i → exec i s = .next t →
    t.aw = s.aw ∧ t.inputs = s.inputs ∧
    (i ≠ .accept → t.v = s.v ∧ t.cap = s.cap ∧ t.st = s.st) ∧
    (i ≠ .predict → t.ord = s.ord ∧ t.nd = s.nd ∧ t.pre = s.pre) ∧
    (i ≠ .scale → i ≠ .lead → i ≠ .pair → i ≠ .last → t.frac = s.frac) ∧
    (i ≠ .scale → i ≠ .pair → i ≠ .last → t.rem = s.rem) ∧
    (i ≠ .accept → i ≠ .lead → i ≠ .pair → i ≠ .last → t.cur = s.cur ∧ t.len = s.len)

/-- The memory frame of every micro-operation (R33): every byte outside the bytes it emits at the cursor reads as before;
for the micro-operations that emit none, all of memory. -/
def Obligations.MicroOpsWriteOnlyAtTheCursor : Prop :=
  ∀ (i : Instr) (s t : State), isMicroOp i → exec i s = .next t →
    ∀ a, (∀ j < bytesEmitted i s, a ≠ wrapAddr s.aw (s.cur + j)) → t.out.read a = s.out.read a

/-- The valid signals (R23, R33): a beat stands on the write port exactly in `LEAD`, `PAIR` and `LAST`, a response on the
response port exactly in `DONE`. -/
def Obligations.PortsAreValidInTheirSteps : Prop :=
  ∀ (i : Instr) (s t : State), isMicroOp i → exec i s = .next t →
    (t.wrValid = true ↔ i = .lead ∨ i = .pair ∨ i = .last) ∧ (t.rspValid = true ↔ i = .done)

/-- A write presented is a write performed, in the same step, at the cursor, lane 0 first (R33, R40); `wr_be` is 01 or 11. -/
def Obligations.BeatsArePerformed : Prop :=
  ∀ (i : Instr) (s t : State) (b : WriteBeat), isMicroOp i → exec i s = .next t → t.wr = some b →
    b.addr = s.cur ∧
    ((b.be = 0b01#2 ∧ t.out = s.out.write (wrapAddr s.aw b.addr) b.lane0) ∨
     (b.be = 0b11#2 ∧
      t.out = (s.out.write (wrapAddr s.aw b.addr) b.lane0).write (wrapAddr s.aw (b.addr + 1)) b.lane1))

/-- No byte value but an ASCII digit is ever written (R57): a byte that an instruction changes becomes a digit character.
The character values are the spec's general knowledge, log entry 16. -/
def Obligations.OnlyDigitCharactersAreWritten : Prop :=
  ∀ (i : Instr) (s t : State) (a : Nat), exec i s = .next t → t.out.read a ≠ s.out.read a →
    ∃ d ≤ 9, t.out.read a = some (asciiDigit d)

/-! ### The sequencer -/

/-- `ACCEPT` latches the operands and checks the capacity (R117): at 10 or above `ST` is 0 and `PREDICT` follows, below 10
`ST` is 1 and `DONE` follows; every other register and every byte of `OUT` is as before. -/
def Obligations.AcceptLatchesAndChecks : Prop :=
  ∀ (s : State) (r : Request), s.request = some r →
    (10 ≤ r.capacity →
      exec .accept s = .next { s with
        v := r.value
        cur := r.cursor
        cap := r.capacity
        len := 0#4
        st := 0#1
        phase := Phase.predict
        wr := none
        rsp := none
        free := s.free + 1 }) ∧
    (r.capacity < 10 →
      exec .accept s = .next { s with
        v := r.value
        cur := r.cursor
        cap := r.capacity
        len := 0#4
        st := 1#1
        phase := Phase.done
        wr := none
        rsp := none
        free := s.free + 1 })

/-- `BufferTooSmall` in full (R134): a request with a capacity below 10 is taken in two steps, in which no byte of `OUT`
changes; the first leaves the operands latched, `LEN` 0, `ST` 1, `PHASE` at `DONE` and the working registers as they were;
the second responds with the starting cursor, length 0 and status 1. -/
def Obligations.BufferTooSmallIsTakenAndReported : Prop :=
  ∀ (s : State) (r : Request) (req : Option Request) (rest : List Stimulus), s.phase = Phase.idle →
    (Instr.encodeU32 r.value r.cursor r.capacity).wellFormed s.aw = true → r.capacity < 10 →
    s.inputs = .ports ⟨false, some r, []⟩ :: .ports ⟨false, req, []⟩ :: rest →
    ∃ t u, step s = .next t ∧ step t = .next u ∧
      t.v = r.value ∧ t.cur = r.cursor ∧ t.cap = r.capacity ∧ t.len = 0#4 ∧ t.st = 1#1 ∧ t.phase = Phase.done ∧
      t.ord = s.ord ∧ t.nd = s.nd ∧ t.pre = s.pre ∧ t.frac = s.frac ∧ t.rem = s.rem ∧
      t.out = s.out ∧ t.wr = none ∧ t.rsp = none ∧
      u.rsp = some ⟨r.cursor, 0#4, 1#1⟩ ∧ u.phase = Phase.idle ∧ u.out = s.out ∧ u.wr = none

/-- Idle (R116): with `PHASE = IDLE` and no request presented a step changes no register, presents no write and no response,
and `req_ready` is 1; and this may go on for any number of steps. That nothing is presented once the list of inputs has
ended, on which the second clause rests, is the model's choice, log entry 6. -/
def Obligations.IdleChangesNothing : Prop :=
  ∀ (s : State) (rest : List Stimulus), s.phase = Phase.idle →
    (s.inputs = .ports ⟨false, none, []⟩ :: rest →
      step s = .next { s with inputs := rest, wr := none, rsp := none, free := s.free + 1 } ∧ s.reqReady = true) ∧
    (s.inputs = [] → ∀ k,
      Host.Core.run Sys2Proof.core (k + 1) s = .next { s with wr := none, rsp := none, free := s.free + (k + 1) })

/-- `DONE` presents the response and returns to `IDLE`; all other registers keep their values (R118). -/
def Obligations.DonePresentsTheResponse : Prop :=
  ∀ s : State, s.len.toNat ≤ 10 →
    exec .done s = .next { s with
      rsp := some ⟨s.cur, s.len, s.st⟩
      phase := Phase.idle
      wr := none
      free := s.free + 1 }

/-- `DONE` stops on `LEN` above 10 (R144). Where this condition is checked is log entry 12. -/
def Obligations.DoneStopsOnALengthAboveTen : Prop :=
  ∀ s : State, 10 < s.len.toNat → exec .done s = .fault .lenAboveTen

/-- The successor relation of `PHASE` (R119), complete: no step that is neither a reset step nor a whole operation makes
another transition. -/
def Obligations.PhaseFollowsTheSuccessorRelation : Prop :=
  ∀ s t : State, s.portIn.rst = false → (∀ w rest, s.inputs = .operation w :: rest → s.phase ≠ Phase.idle) →
    step s = .next t →
      (s.phase = Phase.idle ∧ s.request = none ∧ t.phase = Phase.idle) ∨
      (∃ r, s.phase = Phase.idle ∧ s.request = some r ∧ 10 ≤ r.capacity ∧ t.phase = Phase.predict) ∨
      (∃ r, s.phase = Phase.idle ∧ s.request = some r ∧ r.capacity < 10 ∧ t.phase = Phase.done) ∨
      (s.phase = Phase.predict ∧ t.phase = Phase.scale) ∨
      (s.phase = Phase.scale ∧ t.phase = Phase.lead) ∨
      (s.phase = Phase.lead ∧ t.phase = phaseFor s.rem.toNat) ∨
      (s.phase = Phase.pair ∧ t.phase = phaseFor (s.rem.toNat - 2)) ∨
      (s.phase = Phase.last ∧ t.phase = Phase.done) ∨
      (s.phase = Phase.done ∧ t.phase = Phase.idle)

/-- A request presented while a call is in progress has no effect, and changes of the request signals after the accepting
step do not affect the call (R154, R157): outside `IDLE` a step is the same whatever request is presented. An operation asked
for while the instance is busy is held (log entry 8). -/
def Obligations.RequestsWhileBusyHaveNoEffect : Prop :=
  ∀ (s : State) (p : PortIn) (r : Option Request) (w : Nat) (rest : List Stimulus), s.phase ≠ Phase.idle →
    step { s with inputs := .ports { p with req := r } :: rest } = step { s with inputs := .ports p :: rest } ∧
    step { s with inputs := .operation w :: rest } =
      andThen (step { s with inputs := .ports PortIn.quiet :: rest })
        (fun t => .next { t with inputs := .operation w :: rest })

/-! ### The operation -/

/-- `ENCODE_U32` with a capacity of at least 10 completes from `IDLE` with the meaning of R121: the bytes of `dec(value)`
stand at the cursor, every other byte is as before, the response is `((cursor + n) mod 2^AW, n, OK)`. The registers named
are those that `DONE` keeps (R118). That the operation is one transition is the model's choice, log entry 7. The character
values are the spec's general knowledge, log entry 16. -/
def Obligations.EncodeWritesTheDecimalForm : Prop :=
  ∀ (s : State) (value : Value) (cursor capacity : Nat), awLegal s.aw = true → s.phase = Phase.idle →
    (Instr.encodeU32 value cursor capacity).wellFormed s.aw = true → 10 ≤ capacity →
    ∃ t, exec (.encodeU32 value cursor capacity) s = .next t ∧
      memRead t.aw t.out cursor (ndigits value.toNat) = (dec value.toNat).map some ∧
      (∀ a, (∀ i < ndigits value.toNat, a ≠ (cursor + i) % 2 ^ s.aw) → t.out.read a = s.out.read a) ∧
      t.rsp = some ⟨(cursor + ndigits value.toNat) % 2 ^ s.aw, BitVec.ofNat 4 (ndigits value.toNat), 0#1⟩ ∧
      t.wr = none ∧ t.phase = Phase.idle ∧ t.v = value ∧ t.cap = capacity ∧
      t.cur = (cursor + ndigits value.toNat) % 2 ^ s.aw ∧ t.len.toNat = ndigits value.toNat ∧ t.st = 0#1 ∧
      t.rem = 0#4 ∧ t.aw = s.aw ∧ t.inputs = s.inputs

/-- `ENCODE_U32` with a capacity below 10 leaves `OUT` as it is and responds `(cursor, 0, BufferTooSmall)` (R121, R134).
That the operation is one transition is the model's choice, log entry 7. -/
def Obligations.EncodeReportsBufferTooSmall : Prop :=
  ∀ (s : State) (value : Value) (cursor capacity : Nat), s.phase = Phase.idle →
    (Instr.encodeU32 value cursor capacity).wellFormed s.aw = true → capacity < 10 →
    exec (.encodeU32 value cursor capacity) s = .next { s with
      v := value
      cur := cursor
      cap := capacity
      len := 0#4
      st := 1#1
      rsp := some ⟨cursor, 0#4, 1#1⟩
      wr := none
      free := s.free + 2 }

/-- `ENCODE_U32` while the instance is busy is not accepted and has no effect (R154); that it then waits is the model's
choice, log entry 8. -/
def Obligations.EncodeWaitsWhileBusy : Prop :=
  ∀ (s : State) (value : Value) (cursor capacity : Nat), s.phase ≠ Phase.idle →
    exec (.encodeU32 value cursor capacity) s = .next { s with wr := none, rsp := none, free := s.free + 1 }

/-- The operation is the composition of its steps (R119 to R121): a request presented in one step, with nothing presented
after it, is carried out step by step to the very state that the operation as one transition gives, in the number of steps
of R160, and no earlier step presents a response or is ready again. That the operation is one transition of the model is
log entry 7; that nothing is presented once the list of inputs has ended is log entry 6. -/
def Obligations.EncodeIsTheCompositionOfItsSteps : Prop :=
  ∀ (s : State) (r : Request), awLegal s.aw = true → s.phase = Phase.idle → s.inputs = [.ports ⟨false, some r, []⟩] →
    (Instr.encodeU32 r.value r.cursor r.capacity).wellFormed s.aw = true →
    ∃ t, exec (.encodeU32 r.value r.cursor r.capacity) s = .next t ∧
      Host.Core.run Sys2Proof.core (callSteps r.capacity t.nd.toNat) s = .next { t with inputs := [] } ∧
      ∀ k, 0 < k → k < callSteps r.capacity t.nd.toNat →
        ∃ u : State, Host.Core.run Sys2Proof.core k s = .next u ∧ u.rsp = none ∧ u.reqReady = false

/-- The datapath as one function returns the canonical decimal form of every Value (R122, R98). The character values are
the spec's general knowledge, log entry 16. -/
def Obligations.DatapathFunctionIsDecimal : Prop := ∀ v : Value, encodeDigits v = dec v.toNat

/-- Purity (R123): from any two idle states the same operands give the same response and the same bytes written, whatever
the registers and the buffer held. That the operation is one transition is the model's choice, log entry 7. -/
def Obligations.EncodeDependsOnItsOperandsOnly : Prop :=
  ∀ (s₁ s₂ : State) (value : Value) (cursor capacity : Nat), awLegal s₁.aw = true → s₂.aw = s₁.aw →
    s₁.phase = Phase.idle → s₂.phase = Phase.idle →
    ∃ t₁ t₂, exec (.encodeU32 value cursor capacity) s₁ = .next t₁ ∧ exec (.encodeU32 value cursor capacity) s₂ = .next t₂ ∧
      t₁.rsp = t₂.rsp ∧
      ∀ a, (t₁.out.read a = s₁.out.read a ∧ t₂.out.read a = s₂.out.read a) ∨ t₁.out.read a = t₂.out.read a

/-- No leading zero (R99): a call for a Value other than 0 writes no "0" at the cursor; the call for 0 writes "0" there
and advances by one. That the operation is one transition is the model's choice, log entry 7. The character values are the
spec's general knowledge, log entry 16. -/
def Obligations.NoLeadingZeroIsEmitted : Prop :=
  ∀ (s : State) (value : Value) (cursor capacity : Nat), awLegal s.aw = true → s.phase = Phase.idle →
    (Instr.encodeU32 value cursor capacity).wellFormed s.aw = true → 10 ≤ capacity →
    ∃ t, exec (.encodeU32 value cursor capacity) s = .next t ∧
      (value ≠ 0#32 → ∃ b, t.out.read cursor = some b ∧ b ≠ asciiDigit 0) ∧
      (value = 0#32 → t.out.read cursor = some (asciiDigit 0) ∧ t.len = 1#4)

/-! ### The step, reset and runs -/

/-- A step runs the decoded instruction: outside reset, when the fetched bytes decode to `i`, the step is `exec i`, a stop
included; after a next state the step's stimulus is used up and the other agents' writes land (R115; log entries 6 and 15). -/
def Obligations.StepRunsTheDecodedInstruction : Prop :=
  ∀ (s : State) (i : Instr), s.portIn.rst = false → decode s.aw s.fetch = .ok i →
    step s = andThen (exec i s) fun t =>
      .next { t with inputs := s.inputsAfter, out := foreignWrites s.aw t.out s.portIn.foreign }

/-- What a step fetches decodes to the micro-operation of `PHASE` (R54), and in `IDLE` to the operation that the caller
asks for, with the operands of its record (R51, R59). How bytes carry a format is the model's choice, log entry 11. -/
def Obligations.FetchSelectsTheInstruction : Prop :=
  ∀ (s : State),
    ((∀ w rest, s.inputs = .operation w :: rest → s.phase ≠ Phase.idle) →
      decode s.aw s.fetch = decodePhase s.phase) ∧
    (∀ (r : Request) (rest : List Stimulus), s.phase = Phase.idle →
      (Instr.encodeU32 r.value r.cursor r.capacity).wellFormed s.aw = true →
      s.inputs = .operation (encodeRequest s.aw r) :: rest →
      decode s.aw s.fetch = .ok (.encodeU32 r.value r.cursor r.capacity))

/-- `PHASE = 111` stops the machine unless a reset is applied (R60, R144). -/
def Obligations.ReservedPhaseStops : Prop :=
  ∀ s : State, s.phase = 0b111#3 → s.portIn.rst = false → step s = .fault (.undecodable .reservedPhase)

/-- A reset step (R150 to R152): whatever `PHASE` held and whatever request is presented, `PHASE` becomes `IDLE`, no byte is
written by the instance, no response is presented, and the request is not looked at. -/
def Obligations.ResetAbandonsTheCall : Prop :=
  ∀ (s : State) (req req' : Option Request) (rest : List Stimulus),
    step { s with inputs := .ports ⟨true, req, []⟩ :: rest } = step { s with inputs := .ports ⟨true, req', []⟩ :: rest } ∧
    ∃ t, step { s with inputs := .ports ⟨true, req, []⟩ :: rest } = .next t ∧
      t.phase = Phase.idle ∧ t.reqReady = true ∧ t.wrValid = false ∧ t.rspValid = false ∧ t.out = s.out ∧
      t.aw = s.aw ∧ t.inputs = rest

/-- The state after reset as the spec gives it: `PHASE` is `IDLE`, `req_ready` is 1, the valid outputs are 0 (R25, R151). -/
def Obligations.ResetStateIsIdle : Prop :=
  State.reset.phase = 0b000#3 ∧ State.reset.reqReady = true ∧ State.reset.wrValid = false ∧ State.reset.rspValid = false

/-- The invariant holds at reset, for every `AW` the spec allows and whatever the caller does. The zeros of the unspecified
registers are the model's choice, log entry 2; the list of inputs is log entry 6. -/
def Obligations.ResetSatisfiesTheInvariant : Prop :=
  ∀ (aw : Nat) (inputs : List Stimulus), awLegal aw = true → inv { State.reset with aw := aw, inputs := inputs }

/-- Every step keeps the invariant: legal widths, canonical memory, a phase other than the reserved one, and the invariant
of the call in progress, which bounds `FRAC`, `REM` and `LEN` by the Value being converted (R14, R15, R85, R96). -/
def Obligations.StepKeepsTheInvariant : Prop := ∀ s t : State, inv s → step s = .next t → inv t

/-- From a state that meets the invariant no step stops: the conditions of R144 cannot occur, and nothing stalls (R161). -/
def Obligations.InvariantStatesNeverStop : Prop := ∀ s : State, inv s → ∃ t, step s = .next t

/-- From reset, for every `AW` the spec allows, the machine never stops, whatever the caller and the other agents do
(R60, R144, R161). The zeros of the unspecified registers at reset are the model's choice, log entry 2; the list of inputs
is log entry 6. -/
def Obligations.MachineNeverStopsAfterReset : Prop :=
  ∀ (aw : Nat) (inputs : List Stimulus), awLegal aw = true → neverStops { State.reset with aw := aw, inputs := inputs }

/-- Partial results (R156): while the buffer is owned by the call (R155), every step keeps it true that the bytes written
so far are the leading `LEN` bytes of `dec(V)`. The character values are the spec's general knowledge, log entry 16. -/
def Obligations.StepKeepsTheWrittenPrefix : Prop :=
  ∀ s t : State, inv s → prefixWritten s → bufferOwned s → step s = .next t → prefixWritten t

/-- When the response is presented the result is complete (R41, R101): in `DONE` without a fault, the whole of `dec(V)`
stands from the starting cursor on, and the response is the cursor past it, the digit count and `OK`. The character values
are the spec's general knowledge, log entry 16. -/
def Obligations.ResponseMeansTheResultIsComplete : Prop :=
  ∀ s : State, inv s → prefixWritten s → s.phase = Phase.done → s.portIn.rst = false → s.st = 0#1 →
    ∃ t, step s = .next t ∧
      t.rsp = some ⟨wrapAddr s.aw (callStart s + ndigits s.v.toNat), BitVec.ofNat 4 (ndigits s.v.toNat), 0#1⟩ ∧
      memRead s.aw s.out (callStart s) (ndigits s.v.toNat) = (dec s.v.toNat).map some

/-- QD-CORE performs no memory read (R31): what a step does to everything but `OUT`, and whether it stops, does not depend
on what `OUT` holds. -/
def Obligations.StepIgnoresMemory : Prop :=
  ∀ (s : State) (m : Memory),
    (∀ t, step s = .next t → ∃ t', step { s with out := m } = .next t' ∧ { t' with out := t.out } = t) ∧
    (∀ e, step s = .fault e → step { s with out := m } = .fault e)

/-- Every step keeps the memory canonical and inside the address space of 2^AW bytes (R22), from any registers. -/
def Obligations.StepKeepsMemoryCanonical : Prop :=
  ∀ s t : State, s.out.wf = true → (∀ c ∈ s.out, fitsAddr s.aw c.1 = true) → step s = .next t →
    t.out.wf = true ∧ ∀ c ∈ t.out, fitsAddr t.aw c.1 = true

/-- Another agent's write (R45): the byte ends with the value written last, which is the other agent's when it writes after
the instance's step; that its writes land after the step's own is the model's choice, log entry 15. -/
def Obligations.LastForeignWriteWins : Prop :=
  ∀ (s t : State) (rst : Bool) (req : Option Request) (cs : List Host.Cell) (a : Nat) (b : Byte) (rest : List Stimulus),
    s.inputs = .ports ⟨rst, req, cs ++ [(a, b)]⟩ :: rest → step s = .next t →
    t.out.read (wrapAddr s.aw a) = some b
end

