-- ==== Sys2Proof/Laws/Memory.lean ====
section
/-!
SUPPORT. The `OUT` space: a read after a write, the canonical form, and what other agents' writes do.
-/
namespace Sys2Proof.Machine

@[simp] theorem Memory.read_nil (a : Nat) : Memory.read [] a = none := rfl

theorem Memory.read_cons (c : Host.Cell) (m : Memory) (a : Nat) :
    Memory.read (c :: m) a = if c.1 = a then some c.2 else m.read a := rfl

/-- The byte just written is read back. -/
@[simp] theorem Memory.read_write_same (m : Memory) (a : Nat) (b : Byte) : (m.write a b).read a = some b := by
  induction m with
  | nil => simp [Memory.write, Memory.read_cons]
  | cons c m ih =>
    unfold Memory.write
    split
    · simp [Memory.read_cons]
    · split
      · simp [Memory.read_cons]
      · next h => simp [Memory.read_cons, Ne.symm h, ih]

/-- A write leaves every other address alone. -/
theorem Memory.read_write_of_ne (m : Memory) {a x : Nat} (b : Byte) (h : x ≠ a) :
    (m.write a b).read x = m.read x := by
  induction m with
  | nil => simp [Memory.write, Memory.read_cons, h.symm]
  | cons c m ih =>
    unfold Memory.write
    split
    · simp [Memory.read_cons, h.symm]
    · split
      · next hc => subst hc; simp [Memory.read_cons, h.symm]
      · simp [Memory.read_cons, ih]

theorem Memory.read_write (m : Memory) (a x : Nat) (b : Byte) :
    (m.write a b).read x = if x = a then some b else m.read x := by
  split
  · next h => subst h; simp
  · next h => exact Memory.read_write_of_ne m b h

/-- The canonical form as a relation between neighbours. -/
theorem Memory.wf_iff_pairwise (m : Memory) : m.wf = true ↔ m.Pairwise (fun a b => a.1 < b.1) := by
  induction m with
  | nil => simp [Memory.wf]
  | cons a m ih =>
    cases m with
    | nil => simp [Memory.wf]
    | cons b m =>
      simp only [Memory.wf, Bool.and_eq_true, decide_eq_true_eq, List.pairwise_cons] at ih ⊢
      constructor
      · rintro ⟨hab, hw⟩
        have hm := ih.mp hw
        refine ⟨fun c hc => ?_, hm⟩
        rcases List.mem_cons.mp hc with rfl | hc
        · exact hab
        · exact hab.trans (hm.1 c hc)
      · rintro ⟨h, hm⟩
        exact ⟨h b (by simp), ih.mpr hm⟩

/-- Every cell after a write is the one written or was there before. -/
theorem Memory.mem_write {m : Memory} {a : Nat} {b : Byte} {c : Host.Cell} (h : c ∈ m.write a b) :
    c = (a, b) ∨ c ∈ m := by
  induction m with
  | nil => simpa [Memory.write] using h
  | cons d m ih =>
    unfold Memory.write at h
    split at h
    · simpa using h
    · split at h
      · rcases List.mem_cons.mp h with h | h
        · exact .inl h
        · exact .inr (List.mem_cons_of_mem _ h)
      · rcases List.mem_cons.mp h with h | h
        · exact .inr (h ▸ List.mem_cons_self)
        · exact (ih h).imp_right (List.mem_cons_of_mem _)

/-- A write keeps the canonical form. -/
theorem Memory.wf_write {m : Memory} (a : Nat) (b : Byte) (h : m.wf = true) : (m.write a b).wf = true := by
  rw [Memory.wf_iff_pairwise] at h ⊢
  induction m with
  | nil => simp [Memory.write]
  | cons c m ih =>
    rw [List.pairwise_cons] at h
    unfold Memory.write
    split
    · next hac =>
      rw [List.pairwise_cons, List.pairwise_cons]
      refine ⟨fun d hd => ?_, h⟩
      rcases List.mem_cons.mp hd with rfl | hd
      · exact hac
      · exact Nat.lt_trans hac (h.1 d hd)
    · split
      · next _ hc => subst hc; exact List.pairwise_cons.mpr h
      · next hlt hne =>
        refine List.pairwise_cons.mpr ⟨fun d hd => ?_, ih h.2⟩
        rcases Memory.mem_write hd with rfl | hd
        · exact Nat.lt_of_le_of_ne (Nat.le_of_not_lt hlt) (Ne.symm hne)
        · exact h.1 d hd

/-- A write inside the address space keeps every cell inside it. -/
theorem Memory.fits_write {m : Memory} {aw : Nat} (a : Nat) (b : Byte)
    (h : ∀ c ∈ m, fitsAddr aw c.1 = true) : ∀ c ∈ m.write (wrapAddr aw a) b, fitsAddr aw c.1 = true := by
  intro c hc
  rcases Memory.mem_write hc with rfl | hc
  · exact decide_eq_true (Nat.mod_lt a (Nat.two_pow_pos aw))
  · exact h c hc

/-- A canonical memory lists nothing below its first address. -/
theorem Memory.read_below {c : Host.Cell} {m : Memory} (h : Memory.wf (c :: m) = true) {a : Nat} (ha : a ≤ c.1) :
    m.read a = none := by
  rw [Memory.wf_iff_pairwise, List.pairwise_cons] at h
  have key : ∀ d ∈ m, a < d.1 := fun d hd => lt_of_le_of_lt ha (h.1 d hd)
  clear h
  induction m with
  | nil => rfl
  | cons d m ih =>
    rw [Memory.read_cons, if_neg (Nat.ne_of_gt (key d List.mem_cons_self)),
      ih fun e he => key e (List.mem_cons_of_mem _ he)]

/-- Canonical memories that read alike are equal data. -/
theorem Memory.ext_read {m n : Memory} (hm : m.wf = true) (hn : n.wf = true) (h : ∀ a, m.read a = n.read a) :
    m = n := by
  have tail : ∀ {c : Host.Cell} {r : Memory}, Memory.wf (c :: r) = true → r.wf = true := by
    intro c r hw
    rw [Memory.wf_iff_pairwise] at hw ⊢
    exact (List.pairwise_cons.mp hw).2
  induction m generalizing n with
  | nil =>
    cases n with
    | nil => rfl
    | cons d n => simpa [Memory.read_cons] using h d.1
  | cons c m ih =>
    cases n with
    | nil => simpa [Memory.read_cons] using h c.1
    | cons d n =>
      have hc := h c.1
      have hd := h d.1
      have heq : c.1 = d.1 := by
        rcases Nat.lt_trichotomy c.1 d.1 with hlt | heq | hgt
        · rw [Memory.read_cons, Memory.read_cons, if_pos rfl, if_neg (Nat.ne_of_gt hlt),
            Memory.read_below hn (Nat.le_of_lt hlt)] at hc
          exact absurd hc (by simp)
        · exact heq
        · rw [Memory.read_cons, Memory.read_cons, if_pos rfl, if_neg (Nat.ne_of_gt hgt),
            Memory.read_below hm (Nat.le_of_lt hgt)] at hd
          exact absurd hd (by simp)
      have hb : c.2 = d.2 := by
        simpa [Memory.read_cons, heq] using hc
      have hcd : c = d := Prod.ext heq hb
      subst hcd
      congr 1
      refine ih (tail hm) (tail hn) fun a => ?_
      by_cases ha : c.1 = a
      · subst ha
        rw [Memory.read_below hm (Nat.le_refl _), Memory.read_below hn (Nat.le_refl _)]
      · simpa [Memory.read_cons, ha] using h a

/-- The memory after reset is canonical: nothing is listed. -/
theorem reset_out_wf : State.reset.out.wf = true := rfl

/-! ### Other agents' writes -/

@[simp] theorem foreignWrites_nil (aw : Nat) (m : Memory) : foreignWrites aw m [] = m := rfl

theorem foreignWrites_cons (aw : Nat) (m : Memory) (c : Host.Cell) (cs : List Host.Cell) :
    foreignWrites aw m (c :: cs) = foreignWrites aw (m.write (wrapAddr aw c.1) c.2) cs := rfl

/-- Other agents' writes keep the canonical form. -/
theorem foreignWrites_wf {aw : Nat} {m : Memory} (cs : List Host.Cell) (h : m.wf = true) :
    (foreignWrites aw m cs).wf = true := by
  induction cs generalizing m with
  | nil => exact h
  | cons c cs ih => exact ih (Memory.wf_write _ _ h)

/-- Other agents' writes stay inside the address space. -/
theorem foreignWrites_fits {aw : Nat} {m : Memory} (cs : List Host.Cell) (h : ∀ c ∈ m, fitsAddr aw c.1 = true) :
    ∀ c ∈ foreignWrites aw m cs, fitsAddr aw c.1 = true := by
  induction cs generalizing m with
  | nil => exact h
  | cons c cs ih => exact ih (Memory.fits_write _ _ h)

/-- An address no other agent writes keeps its byte. -/
theorem foreignWrites_read_of_ne {aw : Nat} {m : Memory} {a : Nat} (cs : List Host.Cell)
    (h : ∀ c ∈ cs, wrapAddr aw c.1 ≠ a) : (foreignWrites aw m cs).read a = m.read a := by
  induction cs generalizing m with
  | nil => rfl
  | cons c cs ih =>
    rw [foreignWrites_cons, ih fun d hd => h d (List.mem_cons_of_mem _ hd),
      Memory.read_write_of_ne _ _ (Ne.symm (h c List.mem_cons_self))]

end Sys2Proof.Machine
end

