-- ==== Sys2Proof/Laws/Operands.lean ====
section
/-!
SUPPORT. What the operand helpers compute, as natural numbers.
-/
namespace Sys2Proof.Machine

theorem unit_eq : Config.unit = 144115188075855872 := rfl

theorem tens_eq : Config.tens = 1441151880758558720 := rfl

/-- `W` is `V + 1`, without wrapping (R58). -/
@[simp] theorem plusOne_toNat (v : Value) : (plusOne v).toNat = v.toNat + 1 := by
  have := v.isLt
  simp only [plusOne, BitVec.toNat_add, BitVec.toNat_setWidth, BitVec.toNat_ofNat]
  omega

/-- The correction term is the floor of half of `V` (R58). -/
@[simp] theorem halfValue_toNat (v : Value) : (halfValue v).toNat = v.toNat / 2 := by
  have := v.isLt
  simp only [halfValue, BitVec.toNat_setWidth, BitVec.toNat_ushiftRight, Nat.shiftRight_eq_div_pow]
  omega

/-- `ipart` is the quotient by `UNIT` (R94). -/
@[simp] theorem ipart_toNat (t : Acc) : (ipart t).toNat = t.toNat / Config.unit := by
  have := t.isLt
  simp only [ipart, BitVec.extractLsb'_toNat, Nat.shiftRight_eq_div_pow, unit_eq]
  omega

/-- `fpart` is the remainder by `UNIT` (R94). -/
@[simp] theorem fpart_toNat (t : Acc) : (fpart t).toNat = t.toNat % Config.unit := by
  simp only [fpart, BitVec.toNat_setWidth, BitVec.extractLsb'_toNat, Nat.shiftRight_eq_div_pow, unit_eq]
  omega

theorem fpart_lt (t : Acc) : (fpart t).toNat < Config.unit := by
  rw [fpart_toNat]
  exact Nat.mod_lt _ (by decide)

/-- `digit_char` adds 0x30 (R94). -/
theorem digitChar_eq (d : Key) : digitChar d = BitVec.ofNat 8 (0x30 + d.toNat) := by
  have := d.isLt
  apply BitVec.eq_of_toNat_eq
  simp only [digitChar, BitVec.toNat_add, BitVec.toNat_setWidth, BitVec.toNat_ofNat]
  omega

/-- `rem0` is `ND - 2`, floored at 0 (R83). -/
@[simp] theorem rem0_toNat (nd : BitVec 4) : (rem0 nd).toNat = nd.toNat - 2 := by
  have := nd.isLt
  unfold rem0
  split
  · simp only [BitVec.toNat_sub, BitVec.toNat_ofNat]; omega
  · simp only [BitVec.toNat_ofNat]; omega

/-- The phase after `r` digits remain is `PAIR`, `LAST` or `DONE`, by `r` (R95). -/
theorem afterPhase_cases (r : BitVec 4) :
    (2 ≤ r.toNat ∧ afterPhase r = Phase.pair) ∨ (r.toNat = 1 ∧ afterPhase r = Phase.last) ∨
      (r.toNat = 0 ∧ afterPhase r = Phase.done) := by
  unfold afterPhase
  split
  · exact .inl ⟨‹_›, rfl⟩
  · split
    · exact .inr (.inl ⟨‹_›, rfl⟩)
    · exact .inr (.inr ⟨by omega, rfl⟩)

theorem mulExact_eq_some {a b : Nat} {t : Acc} : mulExact a b = some t ↔ t.toNat = a * b := by
  unfold mulExact
  constructor
  · split
    · rintro ⟨⟩; simp only [BitVec.toNat_ofNat]; exact Nat.mod_eq_of_lt ‹_›
    · rintro ⟨⟩
  · intro h
    have := t.isLt
    rw [if_pos (h ▸ this), ← h, BitVec.ofNat_toNat, BitVec.setWidth_eq]

theorem mulExact_eq_none {a b : Nat} : mulExact a b = none ↔ 2 ^ 64 ≤ a * b := by
  unfold mulExact
  split
  · simp only [reduceCtorEq, false_iff]; omega
  · simp only [true_iff]; omega

@[simp] theorem atLeastTens_iff (t : Acc) : atLeastTens t = true ↔ Config.tens ≤ t.toNat := by
  simp [atLeastTens]

/-- The correction is half of `V` at or above `TENS` and 0 below (R82). -/
theorem correction_toNat (t : Acc) (v : Value) :
    (correction t v).toNat = if Config.tens ≤ t.toNat then v.toNat / 2 else 0 := by
  unfold correction
  by_cases h : Config.tens ≤ t.toNat <;> simp [h]

@[simp] theorem tooSmall_iff (c : Nat) : tooSmall c = true ↔ c < 10 := by
  simp [tooSmall]

theorem tooSmall_eq_false {c : Nat} : tooSmall c = false ↔ 10 ≤ c := by
  simp [tooSmall]

/-- `PAIR_ROM` is populated at keys 0 to 99 (R56). -/
theorem pairRom_isSome_iff (q : Key) : (pairRom q).isSome = true ↔ q.toNat < 100 := by
  unfold pairRom
  simp [pairWords, pairWordsLow, pairWordsHigh]

/-- `SCALE_ROM` is populated at addresses 0 to 32 (R55). -/
theorem scaleRom_isSome_iff (k : BitVec 6) : (scaleRom k).isSome = true ↔ k.toNat < 33 := by
  unfold scaleRom
  simp [scaleWords, scaleWordsLow, scaleWordsMid, scaleWordsHigh]

@[simp] theorem wrapAddr_idem (aw a : Nat) : wrapAddr aw (wrapAddr aw a) = wrapAddr aw a := by
  simp [wrapAddr]

theorem wrapAddr_lt (aw a : Nat) : wrapAddr aw a < 2 ^ aw := Nat.mod_lt _ (Nat.two_pow_pos aw)

theorem wrapAddr_of_lt {aw a : Nat} (h : a < 2 ^ aw) : wrapAddr aw a = a := Nat.mod_eq_of_lt h

theorem wrapAddr_add (aw a b : Nat) : wrapAddr aw (wrapAddr aw a + b) = wrapAddr aw (a + b) := by
  simp [wrapAddr]

/-- Two of the sixteen addresses from one on differ, because `AW >= 4` (R7). -/
theorem wrapAddr_ne {aw : Nat} (h : awLegal aw = true) (a : Nat) {i j : Nat} (hi : i < 16) (hj : j < 16) (hij : i ≠ j) :
    wrapAddr aw (a + i) ≠ wrapAddr aw (a + j) := by
  have h16 : 16 ≤ 2 ^ aw := by
    have : 4 ≤ aw := by simpa [awLegal, Config.awMin] using h
    calc 16 = 2 ^ 4 := rfl
      _ ≤ 2 ^ aw := Nat.pow_le_pow_right (by decide) this
  intro he
  have hm : i ≡ j [MOD 2 ^ aw] := Nat.ModEq.add_left_cancel' a he
  exact hij (Nat.ModEq.eq_of_lt_of_lt hm (by omega) (by omega))

end Sys2Proof.Machine
end

