-- ==== Sys2Proof/Laws/State.lean ====
section
/-!
SUPPORT. One lemma per field per update of the state record, true by unfolding the update once.
-/
namespace Sys2Proof.Machine

/-! ### `beginStep` -/

@[simp] theorem beginStep_aw (s : State) : (s.beginStep).aw = s.aw := rfl
@[simp] theorem beginStep_phase (s : State) : (s.beginStep).phase = s.phase := rfl
@[simp] theorem beginStep_v (s : State) : (s.beginStep).v = s.v := rfl
@[simp] theorem beginStep_cur (s : State) : (s.beginStep).cur = s.cur := rfl
@[simp] theorem beginStep_cap (s : State) : (s.beginStep).cap = s.cap := rfl
@[simp] theorem beginStep_ord (s : State) : (s.beginStep).ord = s.ord := rfl
@[simp] theorem beginStep_nd (s : State) : (s.beginStep).nd = s.nd := rfl
@[simp] theorem beginStep_pre (s : State) : (s.beginStep).pre = s.pre := rfl
@[simp] theorem beginStep_frac (s : State) : (s.beginStep).frac = s.frac := rfl
@[simp] theorem beginStep_rem (s : State) : (s.beginStep).rem = s.rem := rfl
@[simp] theorem beginStep_len (s : State) : (s.beginStep).len = s.len := rfl
@[simp] theorem beginStep_st (s : State) : (s.beginStep).st = s.st := rfl
@[simp] theorem beginStep_out (s : State) : (s.beginStep).out = s.out := rfl
@[simp] theorem beginStep_wr (s : State) : (s.beginStep).wr = none := rfl
@[simp] theorem beginStep_rsp (s : State) : (s.beginStep).rsp = none := rfl
@[simp] theorem beginStep_inputs (s : State) : (s.beginStep).inputs = s.inputs := rfl
@[simp] theorem beginStep_free (s : State) : (s.beginStep).free = s.free + 1 := rfl

/-! ### `settle` -/

@[simp] theorem settle_aw (s t : State) : (s.settle t).aw = t.aw := rfl
@[simp] theorem settle_phase (s t : State) : (s.settle t).phase = t.phase := rfl
@[simp] theorem settle_v (s t : State) : (s.settle t).v = t.v := rfl
@[simp] theorem settle_cur (s t : State) : (s.settle t).cur = t.cur := rfl
@[simp] theorem settle_cap (s t : State) : (s.settle t).cap = t.cap := rfl
@[simp] theorem settle_ord (s t : State) : (s.settle t).ord = t.ord := rfl
@[simp] theorem settle_nd (s t : State) : (s.settle t).nd = t.nd := rfl
@[simp] theorem settle_pre (s t : State) : (s.settle t).pre = t.pre := rfl
@[simp] theorem settle_frac (s t : State) : (s.settle t).frac = t.frac := rfl
@[simp] theorem settle_rem (s t : State) : (s.settle t).rem = t.rem := rfl
@[simp] theorem settle_len (s t : State) : (s.settle t).len = t.len := rfl
@[simp] theorem settle_st (s t : State) : (s.settle t).st = t.st := rfl
@[simp] theorem settle_out (s t : State) : (s.settle t).out = foreignWrites s.aw t.out s.portIn.foreign := rfl
@[simp] theorem settle_wr (s t : State) : (s.settle t).wr = t.wr := rfl
@[simp] theorem settle_rsp (s t : State) : (s.settle t).rsp = t.rsp := rfl
@[simp] theorem settle_inputs (s t : State) : (s.settle t).inputs = s.inputsAfter := rfl
@[simp] theorem settle_free (s t : State) : (s.settle t).free = t.free := rfl

/-! ### `raiseBufferTooSmall` -/

@[simp] theorem raiseBufferTooSmall_aw (s : State) : (raiseBufferTooSmall s).aw = s.aw := rfl
@[simp] theorem raiseBufferTooSmall_phase (s : State) : (raiseBufferTooSmall s).phase = Phase.done := rfl
@[simp] theorem raiseBufferTooSmall_v (s : State) : (raiseBufferTooSmall s).v = s.v := rfl
@[simp] theorem raiseBufferTooSmall_cur (s : State) : (raiseBufferTooSmall s).cur = s.cur := rfl
@[simp] theorem raiseBufferTooSmall_cap (s : State) : (raiseBufferTooSmall s).cap = s.cap := rfl
@[simp] theorem raiseBufferTooSmall_ord (s : State) : (raiseBufferTooSmall s).ord = s.ord := rfl
@[simp] theorem raiseBufferTooSmall_nd (s : State) : (raiseBufferTooSmall s).nd = s.nd := rfl
@[simp] theorem raiseBufferTooSmall_pre (s : State) : (raiseBufferTooSmall s).pre = s.pre := rfl
@[simp] theorem raiseBufferTooSmall_frac (s : State) : (raiseBufferTooSmall s).frac = s.frac := rfl
@[simp] theorem raiseBufferTooSmall_rem (s : State) : (raiseBufferTooSmall s).rem = s.rem := rfl
@[simp] theorem raiseBufferTooSmall_len (s : State) : (raiseBufferTooSmall s).len = s.len := rfl
@[simp] theorem raiseBufferTooSmall_st (s : State) : (raiseBufferTooSmall s).st = 1#1 := rfl
@[simp] theorem raiseBufferTooSmall_out (s : State) : (raiseBufferTooSmall s).out = s.out := rfl
@[simp] theorem raiseBufferTooSmall_wr (s : State) : (raiseBufferTooSmall s).wr = s.wr := rfl
@[simp] theorem raiseBufferTooSmall_rsp (s : State) : (raiseBufferTooSmall s).rsp = s.rsp := rfl
@[simp] theorem raiseBufferTooSmall_inputs (s : State) : (raiseBufferTooSmall s).inputs = s.inputs := rfl
@[simp] theorem raiseBufferTooSmall_free (s : State) : (raiseBufferTooSmall s).free = s.free := rfl

/-! ### `endCall` -/

@[simp] theorem endCall_aw (s : State) : (endCall s).aw = s.aw := rfl
@[simp] theorem endCall_phase (s : State) : (endCall s).phase = Phase.idle := rfl
@[simp] theorem endCall_v (s : State) : (endCall s).v = s.v := rfl
@[simp] theorem endCall_cur (s : State) : (endCall s).cur = s.cur := rfl
@[simp] theorem endCall_cap (s : State) : (endCall s).cap = s.cap := rfl
@[simp] theorem endCall_ord (s : State) : (endCall s).ord = s.ord := rfl
@[simp] theorem endCall_nd (s : State) : (endCall s).nd = s.nd := rfl
@[simp] theorem endCall_pre (s : State) : (endCall s).pre = s.pre := rfl
@[simp] theorem endCall_frac (s : State) : (endCall s).frac = s.frac := rfl
@[simp] theorem endCall_rem (s : State) : (endCall s).rem = s.rem := rfl
@[simp] theorem endCall_len (s : State) : (endCall s).len = s.len := rfl
@[simp] theorem endCall_st (s : State) : (endCall s).st = s.st := rfl
@[simp] theorem endCall_out (s : State) : (endCall s).out = s.out := rfl
@[simp] theorem endCall_wr (s : State) : (endCall s).wr = none := rfl
@[simp] theorem endCall_rsp (s : State) : (endCall s).rsp = some ⟨s.cur, s.len, s.st⟩ := rfl
@[simp] theorem endCall_inputs (s : State) : (endCall s).inputs = s.inputs := rfl
@[simp] theorem endCall_free (s : State) : (endCall s).free = s.free + 1 := rfl

/-! ### `acceptRequest` -/

@[simp] theorem acceptRequest_aw (r : Request) (s : State) : (acceptRequest r s).aw = s.aw := by unfold acceptRequest; split <;> rfl
@[simp] theorem acceptRequest_phase (r : Request) (s : State) : (acceptRequest r s).phase = if tooSmall r.capacity then Phase.done else Phase.predict := by unfold acceptRequest; split <;> rfl
@[simp] theorem acceptRequest_v (r : Request) (s : State) : (acceptRequest r s).v = r.value := by unfold acceptRequest; split <;> rfl
@[simp] theorem acceptRequest_cur (r : Request) (s : State) : (acceptRequest r s).cur = r.cursor := by unfold acceptRequest; split <;> rfl
@[simp] theorem acceptRequest_cap (r : Request) (s : State) : (acceptRequest r s).cap = r.capacity := by unfold acceptRequest; split <;> rfl
@[simp] theorem acceptRequest_ord (r : Request) (s : State) : (acceptRequest r s).ord = s.ord := by unfold acceptRequest; split <;> rfl
@[simp] theorem acceptRequest_nd (r : Request) (s : State) : (acceptRequest r s).nd = s.nd := by unfold acceptRequest; split <;> rfl
@[simp] theorem acceptRequest_pre (r : Request) (s : State) : (acceptRequest r s).pre = s.pre := by unfold acceptRequest; split <;> rfl
@[simp] theorem acceptRequest_frac (r : Request) (s : State) : (acceptRequest r s).frac = s.frac := by unfold acceptRequest; split <;> rfl
@[simp] theorem acceptRequest_rem (r : Request) (s : State) : (acceptRequest r s).rem = s.rem := by unfold acceptRequest; split <;> rfl
@[simp] theorem acceptRequest_len (r : Request) (s : State) : (acceptRequest r s).len = 0#4 := by unfold acceptRequest; split <;> rfl
@[simp] theorem acceptRequest_st (r : Request) (s : State) : (acceptRequest r s).st = if tooSmall r.capacity then 1#1 else 0#1 := by unfold acceptRequest; split <;> rfl
@[simp] theorem acceptRequest_out (r : Request) (s : State) : (acceptRequest r s).out = s.out := by unfold acceptRequest; split <;> rfl
@[simp] theorem acceptRequest_wr (r : Request) (s : State) : (acceptRequest r s).wr = none := by unfold acceptRequest; split <;> rfl
@[simp] theorem acceptRequest_rsp (r : Request) (s : State) : (acceptRequest r s).rsp = none := by unfold acceptRequest; split <;> rfl
@[simp] theorem acceptRequest_inputs (r : Request) (s : State) : (acceptRequest r s).inputs = s.inputs := by unfold acceptRequest; split <;> rfl
@[simp] theorem acceptRequest_free (r : Request) (s : State) : (acceptRequest r s).free = s.free + 1 := by unfold acceptRequest; split <;> rfl

/-! ### `resetStep` -/

@[simp] theorem resetStep_aw (s : State) : (s.resetStep).aw = s.aw := rfl
@[simp] theorem resetStep_phase (s : State) : (s.resetStep).phase = Phase.idle := rfl
@[simp] theorem resetStep_v (s : State) : (s.resetStep).v = Config.freeV s.free := rfl
@[simp] theorem resetStep_cur (s : State) : (s.resetStep).cur = wrapAddr s.aw (Config.freeCur s.free) := rfl
@[simp] theorem resetStep_cap (s : State) : (s.resetStep).cap = wrapAddr s.aw (Config.freeCap s.free) := rfl
@[simp] theorem resetStep_ord (s : State) : (s.resetStep).ord = Config.freeOrd s.free := rfl
@[simp] theorem resetStep_nd (s : State) : (s.resetStep).nd = Config.freeNd s.free := rfl
@[simp] theorem resetStep_pre (s : State) : (s.resetStep).pre = Config.freePre s.free := rfl
@[simp] theorem resetStep_frac (s : State) : (s.resetStep).frac = Config.freeFrac s.free := rfl
@[simp] theorem resetStep_rem (s : State) : (s.resetStep).rem = Config.freeRem s.free := rfl
@[simp] theorem resetStep_len (s : State) : (s.resetStep).len = Config.freeLen s.free := rfl
@[simp] theorem resetStep_st (s : State) : (s.resetStep).st = Config.freeSt s.free := rfl
@[simp] theorem resetStep_out (s : State) : (s.resetStep).out = s.out := rfl
@[simp] theorem resetStep_wr (s : State) : (s.resetStep).wr = none := rfl
@[simp] theorem resetStep_rsp (s : State) : (s.resetStep).rsp = none := rfl
@[simp] theorem resetStep_inputs (s : State) : (s.resetStep).inputs = s.inputs := rfl
@[simp] theorem resetStep_free (s : State) : (s.resetStep).free = s.free + 1 := rfl

end Sys2Proof.Machine
end

