-- ==== Sys2Proof/Laws/Ops.lean ====
section
/-!
SUPPORT. For each shared operation, once, everything it can do: when it answers a next state, and which.
-/
namespace Sys2Proof.Machine

@[simp] theorem andThen_next (s : State) (f : State → Result) : andThen (.next s) f = f s := rfl
@[simp] theorem andThen_fault (e : Fault) (f : State → Result) : andThen (.fault e) f = .fault e := rfl
@[simp] theorem andThen_refused (e : Refusal) (f : State → Result) : andThen (.refused e) f = .refused e := rfl

/-- A sequence answers a next state exactly when both parts do. -/
theorem andThen_eq_next {o : Result} {f : State → Result} {t : State} :
    andThen o f = .next t ↔ ∃ s, o = .next s ∧ f s = .next t := by
  cases o <;> simp

/-- What a one-byte beat does (R33). -/
theorem memWrite_one (s : State) (a : Nat) (x y : Byte) :
    memWrite s ⟨a, x, y, 0b01#2⟩ =
      .next { s with out := s.out.write (wrapAddr s.aw a) x, wr := some ⟨a, x, y, 0b01#2⟩ } := rfl

/-- What a two-byte beat does (R33). -/
theorem memWrite_two (s : State) (a : Nat) (x y : Byte) :
    memWrite s ⟨a, x, y, 0b11#2⟩ =
      .next { s with
        out := (s.out.write (wrapAddr s.aw a) x).write (wrapAddr s.aw (a + 1)) y
        wr := some ⟨a, x, y, 0b11#2⟩ } := rfl

/-- The cursor advances exactly while `LEN` stays at most 10 (R36, R144). -/
theorem advanceCursor_eq_next {n : Nat} {s t : State} :
    advanceCursor n s = .next t ↔
      s.len.toNat + n ≤ 10 ∧ t = { s with cur := wrapAddr s.aw (s.cur + n), len := s.len + BitVec.ofNat 4 n } := by
  unfold advanceCursor
  split
  · next h => simp only [Host.Outcome.next.injEq]; exact ⟨fun e => ⟨h, e.symm⟩, fun e => e.2.symm⟩
  · next h => simp only [reduceCtorEq, false_iff]; exact fun e => h e.1

/-- Everything a one-digit emission can do (R91, R93). -/
theorem emitDigit_eq_next {q : Key} {s t : State} :
    emitDigit q s = .next t ↔
      q.toNat ≤ 9 ∧ s.len.toNat + 1 ≤ 10 ∧
        t = { s with
          out := s.out.write (wrapAddr s.aw s.cur) (digitChar q)
          wr := some ⟨s.cur, digitChar q, Config.freeLane s.free, 0b01#2⟩
          cur := wrapAddr s.aw (s.cur + 1)
          len := s.len + 1#4 } := by
  unfold emitDigit
  split
  · next h => rw [memWrite_one, andThen_next, advanceCursor_eq_next]; simp only [h, true_and]
  · next h => simp only [reduceCtorEq, false_iff]; exact fun e => h e.1

/-- Everything a two-digit emission can do (R91, R92). -/
theorem emitPair_eq_next {q : Key} {s t : State} :
    emitPair q s = .next t ↔
      ∃ w, pairRom q = some w ∧ s.len.toNat + 2 ≤ 10 ∧
        t = { s with
          out := (s.out.write (wrapAddr s.aw s.cur) (pairTens w)).write (wrapAddr s.aw (s.cur + 1)) (pairOnes w)
          wr := some ⟨s.cur, pairTens w, pairOnes w, 0b11#2⟩
          cur := wrapAddr s.aw (s.cur + 2)
          len := s.len + 2#4 } := by
  unfold emitPair
  cases h : pairRom q with
  | none => simp
  | some w => simp only [memWrite_two, andThen_next, advanceCursor_eq_next, Option.some.injEq, exists_eq_left']

/-- A sequence stops exactly when its first part does or its second part does after it. -/
theorem andThen_eq_fault {o : Result} {f : State → Result} {e : Fault} :
    andThen o f = .fault e ↔ o = .fault e ∨ ∃ s, o = .next s ∧ f s = .fault e := by
  cases o <;> simp

/-- The cursor's advance stops exactly where `LEN` would pass 10 (R144). -/
theorem advanceCursor_eq_fault {n : Nat} {s : State} {e : Fault} :
    advanceCursor n s = .fault e ↔ 10 < s.len.toNat + n ∧ e = .lenAboveTen := by
  unfold advanceCursor
  split
  · next h => simp only [reduceCtorEq, false_iff]; exact fun k => absurd h (Nat.not_le.mpr k.1)
  · next h => simp only [Host.Outcome.fault.injEq]; exact ⟨fun k => ⟨Nat.lt_of_not_le h, k.symm⟩, fun k => k.2.symm⟩

/-- Every way a one-digit emission can stop (R144). -/
theorem emitDigit_eq_fault {q : Key} {s : State} {e : Fault} :
    emitDigit q s = .fault e ↔
      (9 < q.toNat ∧ e = .digitAboveNine) ∨ (q.toNat ≤ 9 ∧ 10 < s.len.toNat + 1 ∧ e = .lenAboveTen) := by
  unfold emitDigit
  split
  · next h => rw [memWrite_one, andThen_next, advanceCursor_eq_fault]; simp [h, Nat.not_lt.mpr h]
  · next h => simp only [h, Nat.lt_of_not_le h, Host.Outcome.fault.injEq, true_and, false_and, or_false, eq_comm]

/-- Every way a two-digit emission can stop (R144). -/
theorem emitPair_eq_fault {q : Key} {s : State} {e : Fault} :
    emitPair q s = .fault e ↔
      (99 < q.toNat ∧ e = .pairRomKey) ∨ (q.toNat ≤ 99 ∧ 10 < s.len.toNat + 2 ∧ e = .lenAboveTen) := by
  have hs := pairRom_isSome_iff q
  unfold emitPair
  cases h : pairRom q with
  | none =>
    have hq : 99 < q.toNat := by rw [h] at hs; simp only [Option.isSome_none, Bool.false_eq_true, false_iff] at hs; omega
    simp [hq, Nat.not_le.mpr hq, eq_comm]
  | some w =>
    have hq : q.toNat ≤ 99 := by rw [h] at hs; simp only [Option.isSome_some, true_iff] at hs; omega
    simp only [memWrite_two, andThen_next, advanceCursor_eq_fault]
    simp [hq, Nat.not_lt.mpr hq]

/-- The stimulus of the coming step never changes what an instruction does, except through the request (R115). -/
theorem request_eq (s : State) : s.request = s.portIn.req.map (Request.onWires s.aw) := rfl

@[simp] theorem portIn_ports (s : State) (p : PortIn) (rest : List Stimulus) (h : s.inputs = .ports p :: rest) :
    s.portIn = p := by
  simp [State.portIn, h]

@[simp] theorem portIn_nil (s : State) (h : s.inputs = []) : s.portIn = PortIn.quiet := by
  simp [State.portIn, h]

@[simp] theorem portIn_operation (s : State) (w : Nat) (rest : List Stimulus) (h : s.inputs = .operation w :: rest) :
    s.portIn = PortIn.quiet := by
  simp [State.portIn, h]

end Sys2Proof.Machine
end

