-- ==== Sys2Proof/Laws/Exec.lean ====
section
/-!
SUPPORT. For each meaning and for the step, once, everything it can do: when it answers a next state, and which.
-/
namespace Sys2Proof.Machine

/-- `PREDICT` answers what R72 writes. -/
theorem execPredict_eq_next {s t : State} :
    execPredict s = .next t ↔
      ∃ w, scaleRom (order s.v) = some w ∧
        t = { s.beginStep with ord := order s.v, nd := scaleNd w, pre := scalePre w, phase := Phase.scale } := by
  unfold execPredict
  cases h : scaleRom (order s.v) with
  | none => simp
  | some w => simp [eq_comm]

/-- `SCALE` answers what R81 writes, when `ND` is legal and the product fits. -/
theorem execScale_eq_next {s t : State} :
    execScale s = .next t ↔
      1 ≤ s.nd.toNat ∧ s.nd.toNat ≤ 10 ∧ ∃ p : Acc, p.toNat = (s.v.toNat + 1) * s.pre.toNat ∧
        t = { s.beginStep with frac := p + correction p s.v, rem := rem0 s.nd, phase := Phase.lead } := by
  unfold execScale
  split
  · next h =>
    cases hm : mulExact (plusOne s.v).toNat s.pre.toNat with
    | none =>
      have := mulExact_eq_none.mp hm
      rw [plusOne_toNat] at this
      simp only [reduceCtorEq, false_iff]
      rintro ⟨-, -, p, hp, -⟩
      have := p.isLt
      omega
    | some p =>
      have hp := mulExact_eq_some.mp hm
      rw [plusOne_toNat] at hp
      simp only [Host.Outcome.next.injEq]
      constructor
      · exact fun e => ⟨h.1, h.2, p, hp, e.symm⟩
      · rintro ⟨-, -, p', hp', rfl⟩
        rw [BitVec.eq_of_toNat_eq (hp'.trans hp.symm)]
  · next h => simp only [reduceCtorEq, false_iff]; exact fun e => h ⟨e.1, e.2.1⟩

/-- `LEAD` answers what R91 writes, by the comparison of `FRAC` with `TENS`. -/
theorem execLead_eq_next {s t : State} :
    execLead s = .next t ↔
      ∃ u, (if atLeastTens s.frac then emitPair (ipart s.frac) s.beginStep
            else emitDigit (ipart s.frac) s.beginStep) = .next u ∧
        t = { u with frac := fpart s.frac, phase := afterPhase s.rem } := by
  unfold execLead
  rw [andThen_eq_next]
  simp only [Host.Outcome.next.injEq, eq_comm]

/-- `PAIR` answers what R92 writes, when `REM` is at least 2 and the product fits. -/
theorem execPair_eq_next {s t : State} :
    execPair s = .next t ↔
      2 ≤ s.rem.toNat ∧ ∃ p : Acc, p.toNat = s.frac.toNat * 100 ∧ ∃ u, emitPair (ipart p) s.beginStep = .next u ∧
        t = { u with frac := fpart p, rem := s.rem - 2#4, phase := afterPhase (s.rem - 2#4) } := by
  unfold execPair
  split
  · next h =>
    cases hm : mulExact s.frac.toNat 100 with
    | none =>
      have := mulExact_eq_none.mp hm
      simp only [reduceCtorEq, false_iff]
      rintro ⟨-, p, hp, -⟩
      have := p.isLt
      omega
    | some p =>
      have hp := mulExact_eq_some.mp hm
      simp only [andThen_eq_next, Host.Outcome.next.injEq]
      constructor
      · rintro ⟨u, hu, rfl⟩
        exact ⟨h, p, hp, u, hu, rfl⟩
      · rintro ⟨-, p', hp', u, hu, rfl⟩
        obtain rfl := BitVec.eq_of_toNat_eq (hp'.trans hp.symm)
        exact ⟨u, hu, rfl⟩
  · next h => simp only [reduceCtorEq, false_iff]; exact fun e => h e.1

/-- `LAST` answers what R93 writes, when `REM` is 1 and the product fits. -/
theorem execLast_eq_next {s t : State} :
    execLast s = .next t ↔
      s.rem.toNat = 1 ∧ ∃ p : Acc, p.toNat = s.frac.toNat * 10 ∧ ∃ u, emitDigit (ipart p) s.beginStep = .next u ∧
        t = { u with frac := fpart p, rem := 0#4, phase := Phase.done } := by
  unfold execLast
  split
  · next h =>
    cases hm : mulExact s.frac.toNat 10 with
    | none =>
      have := mulExact_eq_none.mp hm
      simp only [reduceCtorEq, false_iff]
      rintro ⟨-, p, hp, -⟩
      have := p.isLt
      omega
    | some p =>
      have hp := mulExact_eq_some.mp hm
      simp only [andThen_eq_next, Host.Outcome.next.injEq]
      constructor
      · rintro ⟨u, hu, rfl⟩
        exact ⟨h, p, hp, u, hu, rfl⟩
      · rintro ⟨-, p', hp', u, hu, rfl⟩
        obtain rfl := BitVec.eq_of_toNat_eq (hp'.trans hp.symm)
        exact ⟨u, hu, rfl⟩
  · next h => simp only [reduceCtorEq, false_iff]; exact fun e => h e.1

/-- `DONE` answers the end of the call while `LEN` is at most 10 (R118, R144). -/
theorem execDone_eq_next {s t : State} : execDone s = .next t ↔ s.len.toNat ≤ 10 ∧ t = endCall s := by
  unfold execDone
  split
  · next h => simp only [Host.Outcome.next.injEq]; exact ⟨fun e => ⟨h, e.symm⟩, fun e => e.2.symm⟩
  · next h => simp only [reduceCtorEq, false_iff]; exact fun e => h e.1

/-- `ACCEPT` answers the request latched where one is presented, else the idle step (R116, R117). -/
theorem execAccept_eq_next {s t : State} :
    execAccept s = .next t ↔
      (∃ r, s.request = some r ∧ t = acceptRequest r s) ∨ (s.request = none ∧ t = s.beginStep) := by
  unfold execAccept
  cases h : s.request with
  | none => simp [eq_comm]
  | some r => simp [eq_comm]

/-- `PAIR` repeated answers what `PAIR` and the rest answer one after the other (R119). -/
theorem repeatPair_succ_eq_next {n : Nat} {s t : State} :
    repeatPair (n + 1) s = .next t ↔ ∃ u, execPair s = .next u ∧ repeatPair n u = .next t := andThen_eq_next

/-- An accepted call answers what its micro-operations answer one after the other, in the order of R119. -/
theorem finishCall_eq_next {s t : State} :
    finishCall s = .next t ↔
      ∃ predicted scaled led paired ended,
        execPredict s = .next predicted ∧ execScale predicted = .next scaled ∧ execLead scaled = .next led ∧
        repeatPair (led.rem.toNat / 2) led = .next paired ∧
        (if paired.rem.toNat = 1 then execLast paired else .next paired) = .next ended ∧
        execDone ended = .next t := by
  unfold finishCall
  simp only [andThen_eq_next]
  constructor
  · rintro ⟨a, ha, b, hb, c, hc, d, hd, e, he, ht⟩
    exact ⟨a, b, c, d, e, ha, hb, hc, hd, he, ht⟩
  · rintro ⟨a, b, c, d, e, ha, hb, hc, hd, he, ht⟩
    exact ⟨a, ha, b, hb, c, hc, d, hd, e, he, ht⟩

/-- Everything `ENCODE_U32` can do: the faulting call, the whole call, or the wait of a busy instance (R119, R134, R154). -/
theorem execEncodeU32_eq_next {value : Value} {cursor capacity : Nat} {s t : State} :
    execEncodeU32 value cursor capacity s = .next t ↔
      (s.phase = Phase.idle ∧ wrapAddr s.aw capacity < 10 ∧
        t = endCall (acceptRequest (Request.onWires s.aw ⟨value, cursor, capacity⟩) s)) ∨
      (s.phase = Phase.idle ∧ 10 ≤ wrapAddr s.aw capacity ∧
        finishCall (acceptRequest (Request.onWires s.aw ⟨value, cursor, capacity⟩) s) = .next t) ∨
      (s.phase ≠ Phase.idle ∧ t = s.beginStep) := by
  unfold execEncodeU32
  have hc : (Request.onWires s.aw ⟨value, cursor, capacity⟩).capacity = wrapAddr s.aw capacity := rfl
  by_cases hp : s.phase = Phase.idle
  · by_cases h : wrapAddr s.aw capacity < 10
    · have h' : ¬ 10 ≤ wrapAddr s.aw capacity := Nat.not_le.mpr h
      simp [hp, hc, h, h', execDone_eq_next]
    · have hd : Phase.predict ≠ Phase.done := by decide
      simp [hp, hc, h, hd, Nat.le_of_not_lt h]
  · simp [hp, eq_comm]

/-- Every way `LEAD` can stop (R144). -/
theorem execLead_eq_fault {s : State} {e : Fault} :
    execLead s = .fault e ↔
      (if atLeastTens s.frac then emitPair (ipart s.frac) s.beginStep
        else emitDigit (ipart s.frac) s.beginStep) = .fault e := by
  unfold execLead
  simp [andThen_eq_fault]

/-- Every way `PAIR` can stop (R144): `REM`, then the product, then the emission. -/
theorem execPair_eq_fault {s : State} {e : Fault} :
    execPair s = .fault e ↔
      (s.rem.toNat < 2 ∧ e = .remAtPair) ∨
      (2 ≤ s.rem.toNat ∧ 2 ^ 64 ≤ s.frac.toNat * 100 ∧ e = .productOverflow) ∨
      (2 ≤ s.rem.toNat ∧ ∃ p : Acc, p.toNat = s.frac.toNat * 100 ∧ emitPair (ipart p) s.beginStep = .fault e) := by
  unfold execPair
  split
  · next h =>
    cases hm : mulExact s.frac.toNat 100 with
    | none =>
      have := mulExact_eq_none.mp hm
      simp only [h, Nat.not_lt.mpr h, this, true_and, false_and, false_or, Host.Outcome.fault.injEq]
      constructor
      · exact fun k => .inl k.symm
      · rintro (k | ⟨p, hp, -⟩)
        · exact k.symm
        · have := p.isLt; omega
    | some p =>
      have hp := mulExact_eq_some.mp hm
      have hlt : ¬ 2 ^ 64 ≤ s.frac.toNat * 100 := by have := p.isLt; omega
      simp only [h, Nat.not_lt.mpr h, hlt, true_and, false_and, false_or, andThen_eq_fault, reduceCtorEq, and_false,
        exists_false, or_false]
      constructor
      · exact fun k => ⟨p, hp, k⟩
      · rintro ⟨q, hq, k⟩
        obtain rfl := BitVec.eq_of_toNat_eq (hq.trans hp.symm)
        exact k
  · next h => simp only [h, Nat.lt_of_not_le h, true_and, false_and, or_false, Host.Outcome.fault.injEq, eq_comm]

/-- Every way `LAST` can stop (R144): `REM`, then the product, then the emission. -/
theorem execLast_eq_fault {s : State} {e : Fault} :
    execLast s = .fault e ↔
      (s.rem.toNat ≠ 1 ∧ e = .remAtLast) ∨
      (s.rem.toNat = 1 ∧ 2 ^ 64 ≤ s.frac.toNat * 10 ∧ e = .productOverflow) ∨
      (s.rem.toNat = 1 ∧ ∃ p : Acc, p.toNat = s.frac.toNat * 10 ∧ emitDigit (ipart p) s.beginStep = .fault e) := by
  unfold execLast
  split
  · next h =>
    cases hm : mulExact s.frac.toNat 10 with
    | none =>
      have := mulExact_eq_none.mp hm
      simp only [h, ne_eq, not_true_eq_false, this, true_and, false_and, false_or, Host.Outcome.fault.injEq]
      constructor
      · exact fun k => .inl k.symm
      · rintro (k | ⟨p, hp, -⟩)
        · exact k.symm
        · have := p.isLt; omega
    | some p =>
      have hp := mulExact_eq_some.mp hm
      have hlt : ¬ 2 ^ 64 ≤ s.frac.toNat * 10 := by have := p.isLt; omega
      simp only [h, ne_eq, not_true_eq_false, hlt, true_and, false_and, false_or, andThen_eq_fault, reduceCtorEq,
        and_false, exists_false, or_false]
      constructor
      · exact fun k => ⟨p, hp, k⟩
      · rintro ⟨q, hq, k⟩
        obtain rfl := BitVec.eq_of_toNat_eq (hq.trans hp.symm)
        exact k
  · next h => simp only [h, ne_eq, not_false_eq_true, true_and, false_and, or_false, Host.Outcome.fault.injEq, eq_comm]

/-- Everything a step can do when it answers a next state: a reset step, or the instruction its bytes decode to; the
surroundings settle after either (R115, R150). -/
theorem step_eq_next {s t : State} :
    step s = .next t ↔
      (s.portIn.rst = true ∧ t = s.settle s.resetStep) ∨
      (s.portIn.rst = false ∧ ∃ i u, decode s.aw s.fetch = .ok i ∧ exec i s = .next u ∧ t = s.settle u) := by
  unfold step
  cases hr : s.portIn.rst with
  | true => simp [eq_comm]
  | false =>
    cases hd : decode s.aw s.fetch with
    | error e => simp
    | ok i =>
      simp only [Bool.false_eq_true, ↓reduceIte, andThen_eq_next, Except.ok.injEq, Host.Outcome.next.injEq, false_and,
        true_and, false_or, exists_and_left, exists_eq_left']
      simp only [eq_comm]

end Sys2Proof.Machine
end

