-- ==== Sys2Proof/Laws/PerInstr.lean ====
section
/-!
SUPPORT. Statements made per instruction, one lemma for each constructor of `Instr`.
-/
namespace Sys2Proof.Laws

theorem length_bytesLE (n w : Nat) : (bytesLE n w).length = n := by
  induction n generalizing w with
  | zero => rfl
  | succ n ih => simp [bytesLE, ih]

/-- Whether an instruction is one of the rows that `PHASE` selects (R54). -/
def selectedByPhase : Instr → Bool
  | .encodeU32 _ _ _ => false
  | .accept => true
  | .predict => true
  | .scale => true
  | .lead => true
  | .pair => true
  | .last => true
  | .done => true

/-- The encoding of an instruction has one fixed length: a phase code one byte, a request record `reqBytes` bytes (R61). -/
def EncodedLength.Statement (i : Instr) : Prop :=
  ∀ aw, (encode aw i).length = if selectedByPhase i then 1 else reqBytes aw

theorem EncodedLength.encodeU32 (value : Value) (cursor capacity : Nat) :
    EncodedLength.Statement (.encodeU32 value cursor capacity) := fun aw => length_bytesLE (reqBytes aw) _

theorem EncodedLength.accept : EncodedLength.Statement .accept := fun _ => rfl

theorem EncodedLength.predict : EncodedLength.Statement .predict := fun _ => rfl

theorem EncodedLength.scale : EncodedLength.Statement .scale := fun _ => rfl

theorem EncodedLength.lead : EncodedLength.Statement .lead := fun _ => rfl

theorem EncodedLength.pair : EncodedLength.Statement .pair := fun _ => rfl

theorem EncodedLength.last : EncodedLength.Statement .last := fun _ => rfl

theorem EncodedLength.done : EncodedLength.Statement .done := fun _ => rfl

end Sys2Proof.Laws
end

