-- ==== Sys2Proof/Tests/Slice0.lean ====
section
/-!
SUPPORT. The model's own tests, and for each obligation with hypotheses a concrete state and operands that meet them. The
expected values come from `spec/95_test_vectors.md` (T1.n, section n) and from the encodings of `spec/30_encoding.md`.
-/
namespace Sys2Proof.Tests
open Sys2Proof.Machine

/-! ### Well-formedness and encodings -/

theorem test_wellFormed_accepts : (Instr.encodeU32 7#32 0xF 10).wellFormed 4 = true := by decide

theorem test_wellFormed_refuses_cursor : (Instr.encodeU32 7#32 0x10 10).wellFormed 4 = false := by decide

theorem test_wellFormed_refuses_capacity : (Instr.encodeU32 7#32 0 (2 ^ 32)).wellFormed 32 = false := by decide

theorem test_awLegal_refuses_three : awLegal 3 = false := by decide

/-- R51 at `AW = 32`: `ENCODE_U32 1000000000, 0x2000, 10`, the example of R121. -/
theorem test_decode_encodeU32 :
    decode 32 [0x00#8, 0xCA#8, 0x9A#8, 0x3B#8, 0x00#8, 0x20#8, 0x00#8, 0x00#8, 0x0A#8, 0x00#8, 0x00#8, 0x00#8]
      = .ok (.encodeU32 1000000000#32 0x2000 10) := by decide

/-- R51 at `AW = 4`: 40 bits, cursor in [35:32], capacity in [39:36]. -/
theorem test_decode_encodeU32_aw4 :
    decode 4 [0x07#8, 0x00#8, 0x00#8, 0x80#8, 0xA1#8] = .ok (.encodeU32 0x80000007#32 1 10) := by decide

theorem test_decode_accept : decode 32 [0b00000000#8] = .ok .accept := by decide
theorem test_decode_predict : decode 32 [0b00000001#8] = .ok .predict := by decide
theorem test_decode_scale : decode 32 [0b00000010#8] = .ok .scale := by decide
theorem test_decode_lead : decode 32 [0b00000011#8] = .ok .lead := by decide
theorem test_decode_pair : decode 32 [0b00000100#8] = .ok .pair := by decide
theorem test_decode_last : decode 32 [0b00000101#8] = .ok .last := by decide
theorem test_decode_done : decode 32 [0b00000110#8] = .ok .done := by decide
theorem test_decode_reserved : decode 32 [0b00000111#8] = .error .reservedPhase := by decide
theorem test_decode_short_record : decode 32 [0#8, 0#8, 0#8] = .error (.badLength 3) := by decide
theorem test_decode_table_word : decodeTableWord 32 0x3B9ACA00 = some (.encodeU32 1000000000#32 0 0) := by decide

/-! ### Single steps -/

/-- The next state, where there is one. -/
def nextState (o : Result) : Option State :=
  match o with
  | .next s => some s
  | .fault _ => none
  | .refused _ => none

/-- A state in a phase of a call with capacity 10. -/
def inPhase (p : BitVec 3) (v : Value) : State := { State.reset with phase := p, v := v, cap := 10 }

/-- An idle state in which a request is presented. -/
def asking (value : Value) (cursor capacity : Nat) : State :=
  { State.reset with inputs := [.ports ⟨false, some ⟨value, cursor, capacity⟩, []⟩] }

/-- The example of R117. -/
theorem test_accept_takes :
    (nextState (exec .accept (asking 7#32 0x100 10))).map (fun t => (t.v, t.cur, t.cap, t.len, t.st, t.phase))
      = some (7#32, 0x100, 10, 0#4, 0#1, Phase.predict) := by decide

/-- The corner case of R117: capacity 9. -/
theorem test_accept_too_small :
    (nextState (exec .accept (asking 7#32 0x100 9))).map (fun t => (t.cur, t.len, t.st, t.phase))
      = some (0x100, 0#4, 1#1, Phase.done) := by decide

/-- The example of R72. -/
theorem test_predict_1000 :
    (nextState (exec .predict (inPhase Phase.predict 1000#32))).map (fun t => (t.ord, t.nd, t.pre))
      = some (23#6, 4#4, 1441151880758558#57) := by decide

/-- T1.9: the only Value of Order 0. -/
theorem test_predict_largest :
    (nextState (exec .predict (inPhase Phase.predict 0xFFFFFFFF#32))).map (fun t => (t.ord, t.nd, t.pre))
      = some (0#6, 10#4, 1441151880#57) := by decide

/-- The example of R81, with correction. -/
theorem test_scale_1000 :
    (nextState (exec .scale { inPhase Phase.scale 1000#32 with nd := 4#4, pre := 1441151880758558#57 })).map
      (fun t => (t.frac, t.rem, t.phase)) = some (1442593032639317058#64, 2#4, Phase.lead) := by decide

/-- T1.5: without correction. -/
theorem test_scale_99 :
    (nextState (exec .scale { inPhase Phase.scale 99#32 with nd := 3#4, pre := 14411518807585586#57 })).map
      (fun t => (t.frac, t.rem)) = some (0x13FFFFFFFFFFFF88#64, 1#4) := by decide

/-- T1.9, the pair branch. -/
def leadState : State := { inPhase Phase.lead 0xFFFFFFFF#32 with frac := 0x55E63B887FFFFFFF#64, rem := 8#4 }

theorem test_lead_pair :
    (nextState (exec .lead leadState)).map (fun t => (t.frac, t.phase, t.out))
      = some (0x01E63B887FFFFFFF#64, Phase.pair, [(0, 0x34#8), (1, 0x32#8)]) := by decide

/-- T1.5, the single branch. -/
theorem test_lead_single :
    (nextState (exec .lead { inPhase Phase.lead 99#32 with frac := 0x13FFFFFFFFFFFF88#64, rem := 1#4 })).map
      (fun t => (t.frac, t.cur, t.out)) = some (0x01FFFFFFFFFFFF88#64, 1, [(0, 0x39#8)]) := by decide

/-- T1.9, the first `PAIR`. -/
def pairState : State :=
  { inPhase Phase.pair 0xFFFFFFFF#32 with frac := 0x01E63B887FFFFFFF#64, rem := 8#4, cur := 2, len := 2#4 }

theorem test_pair :
    (nextState (exec .pair pairState)).map (fun t => (t.frac, t.rem, t.out))
      = some (0x01EF4151FFFFFF9C#64, 6#4, [(2, 0x39#8), (3, 0x34#8)]) := by decide

/-- The same at the top of the address space: the cursor wraps (R36). -/
theorem test_pair_wraps :
    (nextState (exec .pair { pairState with cur := 0xFFFFFFFF })).map (fun t => (t.cur, t.out))
      = some (1, [(0, 0x34#8), (0xFFFFFFFF, 0x39#8)]) := by decide

/-- T1.5, `LAST`, with the byte of `LEAD` written. -/
def lastState : State :=
  { inPhase Phase.last 99#32 with
    ord := 26#6, nd := 3#4, pre := 14411518807585586#57, frac := 0x01FFFFFFFFFFFF88#64, rem := 1#4, cur := 1, len := 1#4
    out := [(0, 0x39#8)] }

theorem test_last :
    (nextState (exec .last lastState)).map (fun t => (t.frac, t.rem, t.out))
      = some (0x01FFFFFFFFFFFB50#64, 0#4, [(0, 0x39#8), (1, 0x39#8)]) := by decide

/-- T1.5, `DONE`. -/
def doneState : State :=
  { lastState with phase := Phase.done, rem := 0#4, cur := 2, len := 2#4, out := [(0, 0x39#8), (1, 0x39#8)] }

theorem test_done :
    (nextState (exec .done doneState)).map (fun t => (t.rsp, t.phase)) = some (some ⟨2, 2#4, 0#1⟩, Phase.idle) := by decide

/-- T1.6. -/
theorem test_encode_100 :
    (nextState (exec (.encodeU32 100#32 0 10) State.reset)).map (fun t => (t.rsp, t.out))
      = some (some ⟨3, 3#4, 0#1⟩, [(0, 0x31#8), (1, 0x30#8), (2, 0x30#8)]) := by decide

/-- R134: nothing is written. -/
theorem test_encode_too_small :
    (nextState (exec (.encodeU32 7#32 0x100 9) State.reset)).map (fun t => (t.rsp, t.out))
      = some (some ⟨0x100, 0#4, 1#1⟩, []) := by decide

/-- A whole step: the table word of `ENCODE_U32` fetched and run as the first instruction. -/
theorem test_step_runs_table_word :
    (nextState (step (State.reset.withFetchWord 96 0x0000000A0000000000000009))).map (fun t => (t.rsp, t.out))
      = some (some ⟨1, 1#4, 0#1⟩, [(0, 0x39#8)]) := by decide

theorem test_reset_memory_wf : State.reset.out.wf = true := by decide

/-! ### Witnesses: states and operands that meet the hypotheses of the obligations -/

theorem witness_DecodeEncodeAgree :
    awLegal 4 = true ∧ (Instr.encodeU32 0xFFFFFFFF#32 15 15).wellFormed 4 = true := by decide

theorem witness_EveryRequestRecordRoundTrips :
    awLegal 4 = true ∧ reqBits 4 % 8 = 0 ∧ [0xFF#8, 0xFF#8, 0xFF#8, 0xFF#8, 0xFF#8].length = reqBytes 4 := by decide

theorem witness_PackedRecordsHoldTheirFields :
    fitsAddr 4 (Response.mk 15 10#4 1#1).cursor = true ∧ fitsAddr 4 (WriteBeat.mk 15 0x31#8 0x30#8 3#2).addr = true := by
  decide

theorem witness_ScaleRomFollowsItsFormulas : (32#6).toNat ≤ 32 ∧ 32 < (33#6).toNat := by decide

theorem witness_PairRomHoldsTheTwoCharacters : (99#7 : Key).toNat ≤ 99 ∧ 99 < (100#7 : Key).toNat := by decide

/-- Orders 0, 1 and 32 are reached. -/
theorem witness_OrderSelectsItsBucket :
    (order 0xFFFFFFFF#32).toNat = 0 ∧ (order 0xFFFFFFFE#32).toNat = 1 ∧ (order 0#32).toNat = 32 := by decide

theorem witness_PredictWritesTheScaleEntry :
    inBucket 0 (inPhase Phase.predict 0xFFFFFFFF#32).v.toNat ∧ inBucket 32 (inPhase Phase.predict 0#32).v.toNat := by
  refine ⟨⟨?_, ?_⟩, ⟨?_, ?_⟩⟩ <;> decide

/-- Entries of Values at the ends of their ranges: 6 has `ND = 1`, 7 has `ND = 2` and one digit. -/
theorem witness_PredictorGuarantees :
    isEntry 6#32 1#4 144115188075855871#57 ∧ isEntry 7#32 2#4 144115188075855871#57 :=
  ⟨⟨0x03FFFFFFFFFFFFFF#61, by decide, by decide, by decide⟩, ⟨0x05FFFFFFFFFFFFFF#61, by decide, by decide, by decide⟩⟩

/-- `SCALE` with the smallest and with the largest `ND`. -/
def scaleState (v : Value) (nd : BitVec 4) (pre : BitVec 57) : State := { inPhase Phase.scale v with nd := nd, pre := pre }

theorem witness_ScaleComputesTheProduct :
    let s := scaleState 0#32 1#4 144115188075855871#57
    let t := scaleState 0xFFFFFFFF#32 10#4 1441151880#57
    (1 ≤ s.nd.toNat ∧ s.nd.toNat ≤ 10 ∧ (s.v.toNat + 1) * s.pre.toNat < 2 ^ 64) ∧
      (1 ≤ t.nd.toNat ∧ t.nd.toNat ≤ 10 ∧ (t.v.toNat + 1) * t.pre.toNat < 2 ^ 64) := by decide

theorem witness_ScaleStopsOutsideItsDomain :
    (scaleState 0#32 0#4 0#57).nd.toNat = 0 ∧ 10 < (scaleState 0#32 11#4 0#57).nd.toNat ∧
      (let s := scaleState 0xFFFFFFFF#32 1#4 0x100000000#57
       1 ≤ s.nd.toNat ∧ s.nd.toNat ≤ 10 ∧ 2 ^ 64 ≤ (s.v.toNat + 1) * s.pre.toNat) := by decide

/-- The largest Value, with its Scale Entry. -/
theorem witness_ScalerPostcondition :
    let s := scaleState 0xFFFFFFFF#32 10#4 1441151880#57
    isEntry s.v s.nd s.pre := ⟨0x1400000055E63B88#61, by decide, by decide, by decide⟩

theorem witness_ScalerNeverOverflows : isEntry 8388606#32 7#4 1441151880758#57 :=
  ⟨0x0E00014F8B588E36#61, by decide, by decide, by decide⟩

theorem witness_CorrectionIsNecessary :
    isEntry 1899855400#32 10#4 1441151880#57 ∧ isEntry 1899855399#32 10#4 1441151880#57 :=
  ⟨⟨0x1400000055E63B88#61, by decide, by decide, by decide⟩, ⟨0x1400000055E63B88#61, by decide, by decide, by decide⟩⟩

theorem witness_LeadEmitsTwoDigits :
    let s := { leadState with frac := BitVec.ofNat 64 Config.tens, len := 8#4 }
    let t := { leadState with frac := BitVec.ofNat 64 (100 * Config.unit - 1), len := 0#4 }
    (Config.tens ≤ s.frac.toNat ∧ s.frac.toNat < 100 * Config.unit ∧ s.len.toNat ≤ 8) ∧
      (Config.tens ≤ t.frac.toNat ∧ t.frac.toNat < 100 * Config.unit ∧ t.len.toNat ≤ 8) := by decide

theorem witness_LeadEmitsOneDigit :
    let s := { leadState with frac := BitVec.ofNat 64 (Config.tens - 1), len := 9#4 }
    s.frac.toNat < Config.tens ∧ s.len.toNat ≤ 9 := by decide

theorem witness_PairEmitsTwoDigits :
    let s := { pairState with frac := BitVec.ofNat 64 (Config.unit - 1), rem := 2#4, len := 8#4 }
    2 ≤ s.rem.toNat ∧ s.frac.toNat < Config.unit ∧ s.len.toNat ≤ 8 := by decide

theorem witness_LastEmitsOneDigit :
    let s := { lastState with frac := BitVec.ofNat 64 (Config.unit - 1), len := 9#4 }
    s.rem.toNat = 1 ∧ s.frac.toNat < Config.unit ∧ s.len.toNat ≤ 9 := by decide

/-- `REM` inconsistent with the phase: the first two clauses, at the boundary. -/
theorem witness_ExtractorStops_rem :
    ({ pairState with rem := 1#4 } : State).rem.toNat < 2 ∧ ({ lastState with rem := 2#4 } : State).rem.toNat ≠ 1 ∧
      ({ lastState with rem := 0#4 } : State).rem.toNat ≠ 1 := by decide

/-- The smallest accumulators whose products reach 2^64. -/
theorem witness_ExtractorStops_product :
    (let s := { pairState with frac := 184467440737095517#64, rem := 2#4 }
     2 ≤ s.rem.toNat ∧ 2 ^ 64 ≤ s.frac.toNat * 100) ∧
      (let s := { lastState with frac := 1844674407370955162#64 }
       s.rem.toNat = 1 ∧ 2 ^ 64 ≤ s.frac.toNat * 10) := by decide

theorem witness_ExtractorStops_leadKey :
    100 * Config.unit ≤ ({ leadState with frac := BitVec.ofNat 64 (100 * Config.unit) } : State).frac.toNat := by decide

/-- The smallest and the largest accumulator whose key is above 99 while the product fits. -/
theorem witness_ExtractorStops_pairKey :
    (let s := { pairState with frac := BitVec.ofNat 64 Config.unit, rem := 2#4 }
     2 ≤ s.rem.toNat ∧ Config.unit ≤ s.frac.toNat ∧ s.frac.toNat * 100 < 2 ^ 64) ∧
      (let s := { pairState with frac := 184467440737095516#64, rem := 2#4 }
       2 ≤ s.rem.toNat ∧ Config.unit ≤ s.frac.toNat ∧ s.frac.toNat * 100 < 2 ^ 64) := by decide

/-- The smallest and the largest accumulator whose digit is above 9 while the product fits. -/
theorem witness_ExtractorStops_digit :
    (let s := { lastState with frac := BitVec.ofNat 64 Config.unit }
     s.rem.toNat = 1 ∧ Config.unit ≤ s.frac.toNat ∧ s.frac.toNat * 10 < 2 ^ 64) ∧
      (let s := { lastState with frac := 1844674407370955161#64 }
       s.rem.toNat = 1 ∧ Config.unit ≤ s.frac.toNat ∧ s.frac.toNat * 10 < 2 ^ 64) := by decide

/-- `LEN` at the smallest value that each form of emission would carry past 10. -/
theorem witness_ExtractorStops_len :
    (let s := { leadState with frac := BitVec.ofNat 64 Config.tens, len := 9#4 }
     Config.tens ≤ s.frac.toNat ∧ s.frac.toNat < 100 * Config.unit ∧ 8 < s.len.toNat) ∧
      (let s := { leadState with frac := BitVec.ofNat 64 (Config.tens - 1), len := 10#4 }
       s.frac.toNat < Config.tens ∧ 9 < s.len.toNat) ∧
      (let s := { pairState with len := 9#4 }
       2 ≤ s.rem.toNat ∧ s.frac.toNat < Config.unit ∧ 8 < s.len.toNat) ∧
      (let s := { lastState with len := 10#4 }
       s.rem.toNat = 1 ∧ s.frac.toNat < Config.unit ∧ 9 < s.len.toNat) := by decide

theorem witness_DoneStopsOnALengthAboveTen : 10 < ({ doneState with len := 11#4 } : State).len.toNat := by decide

/-- The two sides of the boundary `10^(f+1)`: 9 takes the single branch, 10 the pair branch (T1.3, T1.4). -/
theorem witness_LeadStepAgreesWithTheValue :
    let s := scaleState 9#32 2#4 144115188075855871#57
    let t := { scaleState 10#32 2#4 144115188075855871#57 with len := 8#4 }
    (isEntry s.v s.nd s.pre ∧ s.len.toNat ≤ 8) ∧ (isEntry t.v t.nd t.pre ∧ t.len.toNat ≤ 8) :=
  ⟨⟨⟨0x05FFFFFFFFFFFFFF#61, by decide, by decide, by decide⟩, by decide⟩,
    ⟨⟨0x05FFFFFFFFFFFFFF#61, by decide, by decide, by decide⟩, by decide⟩⟩

theorem witness_TensCharacterAtTheLowerAddress : awLegal pairState.aw = true ∧ ∃ t, exec .pair pairState = .next t :=
  ⟨by decide, _, rfl⟩

/-- `LEAD`, `PAIR` and `LAST` each answer a next state. -/
theorem witness_ExtractorLeavesAFraction :
    (∃ t, exec .lead leadState = .next t) ∧ (∃ t, exec .pair pairState = .next t) ∧ ∃ t, exec .last lastState = .next t :=
  ⟨⟨_, rfl⟩, ⟨_, rfl⟩, ⟨_, rfl⟩⟩

theorem isMicroOp_accept : isMicroOp .accept := fun _ _ _ h => by cases h
theorem isMicroOp_lead : isMicroOp .lead := fun _ _ _ h => by cases h
theorem isMicroOp_pair : isMicroOp .pair := fun _ _ _ h => by cases h
theorem isMicroOp_last : isMicroOp .last := fun _ _ _ h => by cases h
theorem isMicroOp_done : isMicroOp .done := fun _ _ _ h => by cases h

/-- A micro-operation that writes no register of a clause, for each clause: `DONE`; and `ACCEPT` for the Predictor's. -/
theorem witness_RegistersHaveTheirWritersOnly :
    (isMicroOp .done ∧ ∃ t, exec .done doneState = .next t) ∧
      (isMicroOp .accept ∧ ∃ t, exec .accept (asking 7#32 0x100 10) = .next t) :=
  ⟨⟨isMicroOp_done, _, rfl⟩, ⟨isMicroOp_accept, _, rfl⟩⟩

/-- A storing micro-operation with an address outside its bytes, and one that stores nothing. -/
theorem witness_MicroOpsWriteOnlyAtTheCursor :
    (isMicroOp .pair ∧ (∃ t, exec .pair pairState = .next t) ∧
      ∀ j < bytesEmitted .pair pairState, 4 ≠ wrapAddr pairState.aw (pairState.cur + j)) ∧
    (isMicroOp .done ∧ (∃ t, exec .done doneState = .next t) ∧
      ∀ j < bytesEmitted .done doneState, 0 ≠ wrapAddr doneState.aw (doneState.cur + j)) :=
  ⟨⟨isMicroOp_pair, ⟨_, rfl⟩, by decide⟩, ⟨isMicroOp_done, ⟨_, rfl⟩, by decide⟩⟩

theorem witness_PortsAreValidInTheirSteps :
    (isMicroOp .lead ∧ ∃ t, exec .lead leadState = .next t) ∧ (isMicroOp .done ∧ ∃ t, exec .done doneState = .next t) :=
  ⟨⟨isMicroOp_lead, _, rfl⟩, ⟨isMicroOp_done, _, rfl⟩⟩

/-- A two-byte beat and a one-byte beat. -/
theorem witness_BeatsArePerformed :
    (isMicroOp .pair ∧ ∃ t b, exec .pair pairState = .next t ∧ t.wr = some b) ∧
      (isMicroOp .last ∧ ∃ t b, exec .last lastState = .next t ∧ t.wr = some b) :=
  ⟨⟨isMicroOp_pair, _, _, rfl, rfl⟩, ⟨isMicroOp_last, _, _, rfl, rfl⟩⟩

theorem witness_OnlyDigitCharactersAreWritten :
    ∃ t, exec .pair pairState = .next t ∧ t.out.read 2 ≠ pairState.out.read 2 := ⟨_, rfl, by decide⟩

theorem witness_AcceptLatchesAndChecks :
    (asking 7#32 0x100 10).request = some ⟨7#32, 0x100, 10⟩ ∧ (asking 7#32 0x100 9).request = some ⟨7#32, 0x100, 9⟩ := by
  decide

theorem witness_BufferTooSmallIsTakenAndReported :
    let r : Request := ⟨7#32, 0x100, 9⟩
    let s : State := { State.reset with inputs := [.ports ⟨false, some r, []⟩, .ports ⟨false, none, []⟩] }
    s.phase = Phase.idle ∧ (Instr.encodeU32 r.value r.cursor r.capacity).wellFormed s.aw = true ∧ r.capacity < 10 ∧
      s.inputs = .ports ⟨false, some r, []⟩ :: .ports ⟨false, none, []⟩ :: [] := by decide

/-- Both clauses: nothing presented in a listed step, and an empty list. -/
theorem witness_IdleChangesNothing :
    let s : State := { State.reset with inputs := [.ports ⟨false, none, []⟩] }
    (s.phase = Phase.idle ∧ s.inputs = .ports ⟨false, none, []⟩ :: []) ∧
      (State.reset.phase = Phase.idle ∧ State.reset.inputs = []) := by decide

theorem witness_DonePresentsTheResponse : ({ doneState with len := 10#4 } : State).len.toNat ≤ 10 := by decide

theorem witness_PhaseFollowsTheSuccessorRelation :
    pairState.portIn.rst = false ∧ (∀ w rest, pairState.inputs = .operation w :: rest → pairState.phase ≠ Phase.idle) ∧
      ∃ t, step pairState = .next t := ⟨by decide, fun _ _ h => by (cases h), _, rfl⟩

theorem witness_RequestsWhileBusyHaveNoEffect : pairState.phase ≠ Phase.idle := by decide

/-- The smallest capacity that is accepted, the last address. -/
theorem witness_EncodeWritesTheDecimalForm :
    awLegal State.reset.aw = true ∧ State.reset.phase = Phase.idle ∧
      (Instr.encodeU32 0xFFFFFFFF#32 0xFFFFFFFF 10).wellFormed State.reset.aw = true ∧ 10 ≤ 10 := by decide

theorem witness_EncodeReportsBufferTooSmall :
    State.reset.phase = Phase.idle ∧ (Instr.encodeU32 7#32 0x100 9).wellFormed State.reset.aw = true ∧ 9 < 10 := by decide

theorem witness_EncodeWaitsWhileBusy : doneState.phase ≠ Phase.idle := by decide

theorem witness_EncodeIsTheCompositionOfItsSteps :
    let s := asking 7#32 0x100 10
    awLegal s.aw = true ∧ s.phase = Phase.idle ∧ s.inputs = [.ports ⟨false, some ⟨7#32, 0x100, 10⟩, []⟩] ∧
      (Instr.encodeU32 7#32 0x100 10).wellFormed s.aw = true := by decide

theorem witness_EncodeDependsOnItsOperandsOnly :
    let t : State := { doneState with phase := Phase.idle }
    awLegal State.reset.aw = true ∧ t.aw = State.reset.aw ∧ State.reset.phase = Phase.idle ∧ t.phase = Phase.idle := by
  decide

/-- Both clauses: a Value other than 0, and 0. -/
theorem witness_NoLeadingZeroIsEmitted :
    awLegal State.reset.aw = true ∧ State.reset.phase = Phase.idle ∧ (1#32 : Value) ≠ 0#32 ∧
      (Instr.encodeU32 1#32 0 10).wellFormed State.reset.aw = true ∧
      (Instr.encodeU32 0#32 0 10).wellFormed State.reset.aw = true := by decide

theorem witness_StepRunsTheDecodedInstruction :
    pairState.portIn.rst = false ∧ decode pairState.aw pairState.fetch = .ok .pair := by decide

/-- Both clauses: a busy instance, and an operation asked for in `IDLE`. -/
theorem witness_FetchSelectsTheInstruction :
    (∀ w rest, pairState.inputs = .operation w :: rest → pairState.phase ≠ Phase.idle) ∧
      (let s : State := { State.reset with inputs := [.operation (encodeRequest 32 ⟨7#32, 0x100, 10⟩)] }
       s.phase = Phase.idle ∧ (Instr.encodeU32 7#32 0x100 10).wellFormed s.aw = true ∧
         s.inputs = .operation (encodeRequest s.aw ⟨7#32, 0x100, 10⟩) :: []) :=
  ⟨fun _ _ h => by (cases h), by decide⟩

theorem witness_ReservedPhaseStops :
    (inPhase 0b111#3 0#32).phase = 0b111#3 ∧ (inPhase 0b111#3 0#32).portIn.rst = false := by decide

theorem witness_ResetSatisfiesTheInvariant : awLegal 4 = true := by decide

theorem ndigits_99 : ndigits 99 = 2 := by norm_num [ndigits]

theorem dec_99 : dec 99 = [0x39#8, 0x39#8] := by
  norm_num [dec]
  decide

/-- The invariant is met in the middle of a call: before `LAST` of T1.5. -/
theorem lastState_inv : inv lastState := by
  refine ⟨by decide, by decide, by decide, by decide, by decide, by decide, ?_⟩
  refine ⟨fun h => absurd h (by decide), fun h => absurd h (by decide), fun h => absurd h (by decide),
    fun h => absurd h (by decide), fun _ => ⟨⟨by decide, by decide, ⟨by decide, ?_⟩, by decide, by decide, ?_, by decide,
    by decide⟩, by decide⟩, fun h => absurd h (by decide)⟩
  · exact ⟨0x0633333333333332#61, by decide, by decide, by decide⟩
  · exact ndigits_99.symm

theorem lastState_prefixWritten : prefixWritten lastState := by
  intro _ _
  show memRead 32 lastState.out (callStart lastState) 1 = ((dec 99).take 1).map some
  rw [dec_99]
  decide

theorem witness_StepKeepsTheInvariant : inv lastState ∧ ∃ t, step lastState = .next t := ⟨lastState_inv, _, rfl⟩

theorem witness_InvariantStatesNeverStop : inv lastState := lastState_inv

theorem witness_MachineNeverStopsAfterReset : awLegal 4 = true := by decide

theorem witness_StepKeepsTheWrittenPrefix :
    inv lastState ∧ prefixWritten lastState ∧ bufferOwned lastState ∧ ∃ t, step lastState = .next t :=
  ⟨lastState_inv, lastState_prefixWritten, fun _ h => by (cases h), _, rfl⟩

theorem doneState_inv : inv doneState := by
  refine ⟨by decide, by decide, by decide, by decide, by decide, by decide, ?_⟩
  exact ⟨fun h => absurd h (by decide), fun h => absurd h (by decide), fun h => absurd h (by decide),
    fun h => absurd h (by decide), fun h => absurd h (by decide), fun _ => .inr ⟨by decide, by decide, ndigits_99.symm⟩⟩

theorem witness_ResponseMeansTheResultIsComplete :
    inv doneState ∧ prefixWritten doneState ∧ doneState.phase = Phase.done ∧ doneState.portIn.rst = false ∧
      doneState.st = 0#1 := by
  refine ⟨doneState_inv, fun _ _ => ?_, by decide, by decide, by decide⟩
  show memRead 32 doneState.out (callStart doneState) 2 = ((dec 99).take 2).map some
  rw [dec_99]
  decide

/-- Both clauses: a state that goes on, and one that stops. -/
theorem witness_StepIgnoresMemory :
    (∃ t, step pairState = .next t) ∧ ∃ e, step (inPhase 0b111#3 0#32) = .fault e := ⟨⟨_, rfl⟩, ⟨_, rfl⟩⟩

theorem witness_StepKeepsMemoryCanonical :
    doneState.out.wf = true ∧ (∀ c ∈ doneState.out, fitsAddr doneState.aw c.1 = true) ∧ ∃ t, step doneState = .next t :=
  ⟨by decide, by decide, _, rfl⟩

theorem witness_LastForeignWriteWins :
    let s : State := { State.reset with inputs := [.ports ⟨false, none, [] ++ [(0x10, 0x7A#8)]⟩] }
    s.inputs = .ports ⟨false, none, [] ++ [(0x10, 0x7A#8)]⟩ :: [] ∧ ∃ t, step s = .next t := ⟨by decide, _, rfl⟩

end Sys2Proof.Tests
end

section
/-!
SUPPORT. The reasoning rules of the state family: what an emission changes, what every instruction keeps of the address
space, and the frames of the micro-operations.
-/
namespace Sys2Proof.Machine

/-! ### Emissions -/

/-- `OUT` is canonical and holds addresses of `aw` bits only (R22). -/
def InSpace (aw : Nat) (m : Memory) : Prop := m.wf = true ∧ ∀ c ∈ m, fitsAddr aw c.1 = true

theorem InSpace.write {aw : Nat} {m : Memory} (h : InSpace aw m) (a : Nat) (b : Byte) :
    InSpace aw (m.write (wrapAddr aw a) b) :=
  ⟨Memory.wf_write _ _ h.1, Memory.fits_write _ _ h.2⟩

theorem InSpace.foreignWrites {aw : Nat} {m : Memory} (h : InSpace aw m) (cs : List Host.Cell) :
    InSpace aw (foreignWrites aw m cs) :=
  ⟨foreignWrites_wf cs h.1, foreignWrites_fits cs h.2⟩

/-- `t` is `s` after `n` digits have been emitted at the cursor: a beat stands on the write port, `CUR` and `LEN` are `n`
further, `OUT` is written inside the address space, and nothing else differs (R33, R36). -/
def Emits (n : Nat) (s t : State) : Prop :=
  ∃ m beat,
    t = { s with out := m, wr := some beat, cur := wrapAddr s.aw (s.cur + n), len := s.len + BitVec.ofNat 4 n } ∧
    s.len.toNat + n ≤ 10 ∧ (InSpace s.aw s.out → InSpace s.aw m)

theorem emits_one_of_emitDigit {q : Key} {s t : State} (h : emitDigit q s = .next t) : Emits 1 s t := by
  obtain ⟨-, hlen, rfl⟩ := emitDigit_eq_next.mp h
  exact ⟨_, _, rfl, hlen, fun hm => hm.write _ _⟩

theorem emits_two_of_emitPair {q : Key} {s t : State} (h : emitPair q s = .next t) : Emits 2 s t := by
  obtain ⟨w, -, hlen, rfl⟩ := emitPair_eq_next.mp h
  exact ⟨_, _, rfl, hlen, fun hm => (hm.write _ _).write _ _⟩

/-- `LEN` counts the digits emitted: it does not wrap, because it stays at most 10. -/
theorem Emits.len_toNat {n : Nat} {s t : State} (h : Emits n s t) : t.len.toNat = s.len.toNat + n := by
  obtain ⟨m, beat, rfl, hlen, -⟩ := h
  simp only [BitVec.toNat_add, BitVec.toNat_ofNat]
  omega

/-- `LEAD` emits two digits when `FRAC` is at least `TENS`, else one, and then leaves the fraction; `REM` is kept (R91). -/
theorem execLead_emits {s t : State} (h : execLead s = .next t) :
    ∃ u, Emits (if Config.tens ≤ s.frac.toNat then 2 else 1) s.beginStep u ∧
      t = { u with frac := fpart s.frac, rem := s.rem, phase := afterPhase s.rem } := by
  obtain ⟨u, hu, rfl⟩ := execLead_eq_next.mp h
  have hemits : Emits (if Config.tens ≤ s.frac.toNat then 2 else 1) s.beginStep u := by
    by_cases htens : Config.tens ≤ s.frac.toNat
    · rw [if_pos ((atLeastTens_iff _).mpr htens)] at hu
      rw [if_pos htens]
      exact emits_two_of_emitPair hu
    · rw [if_neg (mt (atLeastTens_iff _).mp htens)] at hu
      rw [if_neg htens]
      exact emits_one_of_emitDigit hu
  refine ⟨u, hemits, ?_⟩
  obtain ⟨m, beat, rfl, -⟩ := hemits
  rfl

/-- `PAIR` emits two digits, with `REM` at least 2, and leaves the fraction of `FRAC * 100` (R92). -/
theorem execPair_emits {s t : State} (h : execPair s = .next t) :
    2 ≤ s.rem.toNat ∧ ∃ p : Acc, p.toNat = s.frac.toNat * 100 ∧ ∃ u, Emits 2 s.beginStep u ∧
      t = { u with frac := fpart p, rem := s.rem - 2#4, phase := afterPhase (s.rem - 2#4) } := by
  obtain ⟨hrem, p, hp, u, hu, rfl⟩ := execPair_eq_next.mp h
  exact ⟨hrem, p, hp, u, emits_two_of_emitPair hu, rfl⟩

/-- `LAST` emits one digit, with `REM` 1, and leaves the fraction of `FRAC * 10` (R93). -/
theorem execLast_emits {s t : State} (h : execLast s = .next t) :
    s.rem.toNat = 1 ∧ ∃ p : Acc, p.toNat = s.frac.toNat * 10 ∧ ∃ u, Emits 1 s.beginStep u ∧
      t = { u with frac := fpart p, rem := 0#4, phase := Phase.done } := by
  obtain ⟨hrem, p, hp, u, hu, rfl⟩ := execLast_eq_next.mp h
  exact ⟨hrem, p, hp, u, emits_one_of_emitDigit hu, rfl⟩

/-! ### The address space -/

/-- Going from `s` to `t` keeps the width of addresses, and keeps `CUR`, `CAP` and `OUT` within it (R12, R22). Each of the
three is kept by itself, so that claims about `OUT` ask nothing of the registers. -/
structure KeepsSpace (s t : State) : Prop where
  aw : t.aw = s.aw
  cur : fitsAddr s.aw s.cur = true → fitsAddr s.aw t.cur = true
  cap : fitsAddr s.aw s.cap = true → fitsAddr s.aw t.cap = true
  out : InSpace s.aw s.out → InSpace s.aw t.out

theorem KeepsSpace.trans {s t u : State} (hst : KeepsSpace s t) (htu : KeepsSpace t u) : KeepsSpace s u where
  aw := htu.aw.trans hst.aw
  cur h := hst.aw ▸ htu.cur (hst.aw.symm ▸ hst.cur h)
  cap h := hst.aw ▸ htu.cap (hst.aw.symm ▸ hst.cap h)
  out h := hst.aw ▸ htu.out (hst.aw.symm ▸ hst.out h)

/-- Where `AW`, `CUR`, `CAP` and `OUT` are as before, the address space is kept. -/
theorem KeepsSpace.of_eq {s t : State} (haw : t.aw = s.aw) (hcur : t.cur = s.cur) (hcap : t.cap = s.cap)
    (hout : t.out = s.out) : KeepsSpace s t :=
  ⟨haw, fun h => hcur ▸ h, fun h => hcap ▸ h, fun h => hout ▸ h⟩

theorem fitsAddr_wrapAddr (aw a : Nat) : fitsAddr aw (wrapAddr aw a) = true := decide_eq_true (wrapAddr_lt aw a)

/-- An emission keeps the address space, whatever becomes of `FRAC`, `REM` and `PHASE` after it. -/
theorem Emits.keepsSpace {n : Nat} {s u : State} (h : Emits n s.beginStep u) (frac : Acc) (rem : BitVec 4)
    (phase : BitVec 3) : KeepsSpace s { u with frac := frac, rem := rem, phase := phase } := by
  obtain ⟨m, beat, rfl, -, hout⟩ := h
  exact ⟨rfl, fun _ => fitsAddr_wrapAddr _ _, id, hout⟩

theorem execPredict_keepsSpace {s t : State} (h : execPredict s = .next t) : KeepsSpace s t := by
  obtain ⟨w, -, rfl⟩ := execPredict_eq_next.mp h
  exact .of_eq rfl rfl rfl rfl

theorem execScale_keepsSpace {s t : State} (h : execScale s = .next t) : KeepsSpace s t := by
  obtain ⟨-, -, p, -, rfl⟩ := execScale_eq_next.mp h
  exact .of_eq rfl rfl rfl rfl

theorem execLead_keepsSpace {s t : State} (h : execLead s = .next t) : KeepsSpace s t := by
  obtain ⟨u, hu, rfl⟩ := execLead_emits h
  exact hu.keepsSpace _ _ _

theorem execPair_keepsSpace {s t : State} (h : execPair s = .next t) : KeepsSpace s t := by
  obtain ⟨-, p, -, u, hu, rfl⟩ := execPair_emits h
  exact hu.keepsSpace _ _ _

theorem execLast_keepsSpace {s t : State} (h : execLast s = .next t) : KeepsSpace s t := by
  obtain ⟨-, p, -, u, hu, rfl⟩ := execLast_emits h
  exact hu.keepsSpace _ _ _

theorem endCall_keepsSpace (s : State) : KeepsSpace s (endCall s) := .of_eq rfl rfl rfl rfl

theorem execDone_keepsSpace {s t : State} (h : execDone s = .next t) : KeepsSpace s t := by
  obtain ⟨-, rfl⟩ := execDone_eq_next.mp h
  exact endCall_keepsSpace s

/-- A request is latched as the `AW` wires carry it, so its two addresses fit (R23, R51). -/
theorem acceptRequest_keepsSpace (r : Request) (s : State) :
    KeepsSpace s (acceptRequest (Request.onWires s.aw r) s) where
  aw := acceptRequest_aw _ s
  cur _ := by rw [acceptRequest_cur]; exact fitsAddr_wrapAddr _ _
  cap _ := by rw [acceptRequest_cap]; exact fitsAddr_wrapAddr _ _
  out h := by rw [acceptRequest_out]; exact h

theorem execAccept_keepsSpace {s t : State} (h : execAccept s = .next t) : KeepsSpace s t := by
  obtain ⟨r, hr, rfl⟩ | ⟨-, rfl⟩ := execAccept_eq_next.mp h
  · rw [request_eq, Option.map_eq_some_iff] at hr
    obtain ⟨r, -, rfl⟩ := hr
    exact acceptRequest_keepsSpace r s
  · exact .of_eq rfl rfl rfl rfl

theorem repeatPair_keepsSpace {n : Nat} {s t : State} (h : repeatPair n s = .next t) : KeepsSpace s t := by
  induction n generalizing s with
  | zero =>
    cases h
    exact .of_eq rfl rfl rfl rfl
  | succ n ih =>
    obtain ⟨u, hu, ht⟩ := repeatPair_succ_eq_next.mp h
    exact (execPair_keepsSpace hu).trans (ih ht)

theorem finishCall_keepsSpace {s t : State} (h : finishCall s = .next t) : KeepsSpace s t := by
  obtain ⟨predicted, scaled, led, paired, ended, hpredict, hscale, hlead, hpair, hlast, hdone⟩ :=
    finishCall_eq_next.mp h
  have hended : KeepsSpace paired ended := by
    split at hlast
    · exact execLast_keepsSpace hlast
    · cases hlast
      exact .of_eq rfl rfl rfl rfl
  exact (execPredict_keepsSpace hpredict).trans <| (execScale_keepsSpace hscale).trans <|
    (execLead_keepsSpace hlead).trans <| (repeatPair_keepsSpace hpair).trans <|
    hended.trans (execDone_keepsSpace hdone)

theorem execEncodeU32_keepsSpace {value : Value} {cursor capacity : Nat} {s t : State}
    (h : execEncodeU32 value cursor capacity s = .next t) : KeepsSpace s t := by
  obtain ⟨-, -, rfl⟩ | ⟨-, -, hfinish⟩ | ⟨-, rfl⟩ := execEncodeU32_eq_next.mp h
  · exact (acceptRequest_keepsSpace _ s).trans (endCall_keepsSpace _)
  · exact (acceptRequest_keepsSpace _ s).trans (finishCall_keepsSpace hfinish)
  · exact .of_eq rfl rfl rfl rfl

/-- Every instruction keeps the address space (R22). -/
theorem exec_keepsSpace {i : Instr} {s t : State} (h : exec i s = .next t) : KeepsSpace s t := by
  cases i with
  | encodeU32 value cursor capacity => exact execEncodeU32_keepsSpace h
  | accept => exact execAccept_keepsSpace h
  | predict => exact execPredict_keepsSpace h
  | scale => exact execScale_keepsSpace h
  | lead => exact execLead_keepsSpace h
  | pair => exact execPair_keepsSpace h
  | last => exact execLast_keepsSpace h
  | done => exact execDone_keepsSpace h

theorem resetStep_keepsSpace (s : State) : KeepsSpace s s.resetStep :=
  ⟨rfl, fun _ => fitsAddr_wrapAddr _ _, fun _ => fitsAddr_wrapAddr _ _, id⟩

/-- The surroundings write inside the address space too (R33, R45). -/
theorem KeepsSpace.settle {s t : State} (h : KeepsSpace s t) : KeepsSpace s (s.settle t) :=
  ⟨h.aw, h.cur, h.cap, fun hs => (h.out hs).foreignWrites _⟩

/-- Every step keeps the address space (R22). -/
theorem step_keepsSpace {s t : State} (h : step s = .next t) : KeepsSpace s t := by
  obtain ⟨-, rfl⟩ | ⟨-, i, u, -, hu, rfl⟩ := step_eq_next.mp h
  · exact (resetStep_keepsSpace s).settle
  · exact (exec_keepsSpace hu).settle

/-! ### The valid signals -/

@[simp] theorem wrValid_eq (s : State) : s.wrValid = s.wr.isSome := rfl

@[simp] theorem rspValid_eq (s : State) : s.rspValid = s.rsp.isSome := rfl

end Sys2Proof.Machine

namespace Sys2Proof.Proofs
open Sys2Proof.Machine

/-- Settles O53: `step_keepsSpace`, of which it is the part about `OUT`. -/
theorem stepKeepsMemoryCanonical : Obligations.StepKeepsMemoryCanonical := by
  intro s t hwf hfits hstep
  have hkeeps := step_keepsSpace hstep
  rw [hkeeps.aw]
  exact hkeeps.out ⟨hwf, hfits⟩

/-- Settles O22: each of the three steps leaves the fraction part of a number, `fpart_lt`. -/
theorem extractorLeavesAFraction : Obligations.ExtractorLeavesAFraction := by
  rintro s t (hlead | hpair | hlast)
  · obtain ⟨u, -, rfl⟩ := execLead_emits hlead
    exact fpart_lt _
  · obtain ⟨-, p, -, u, -, rfl⟩ := execPair_emits hpair
    exact fpart_lt _
  · obtain ⟨-, p, -, u, -, rfl⟩ := execLast_emits hlast
    exact fpart_lt _

/-- Settles O23: the next state of each micro-operation is `s` with its own registers replaced. -/
theorem registersHaveTheirWritersOnly : Obligations.RegistersHaveTheirWritersOnly := by
  intro i s t hmicro h
  cases i with
  | encodeU32 value cursor capacity => exact absurd rfl (hmicro value cursor capacity)
  | accept =>
    obtain ⟨r, -, rfl⟩ | ⟨-, rfl⟩ := execAccept_eq_next.mp h <;> simp
  | predict =>
    obtain ⟨w, -, rfl⟩ := execPredict_eq_next.mp h
    simp
  | scale =>
    obtain ⟨-, -, p, -, rfl⟩ := execScale_eq_next.mp h
    simp
  | lead =>
    obtain ⟨u, ⟨m, beat, rfl, -⟩, rfl⟩ := execLead_emits h
    simp
  | pair =>
    obtain ⟨-, p, -, u, ⟨m, beat, rfl, -⟩, rfl⟩ := execPair_emits h
    simp
  | last =>
    obtain ⟨-, p, -, u, ⟨m, beat, rfl, -⟩, rfl⟩ := execLast_emits h
    simp
  | done =>
    obtain ⟨-, rfl⟩ := execDone_eq_next.mp h
    simp

/-- Settles O25: an emission presents a beat, the end of a call a response, and every step begins with neither. -/
theorem portsAreValidInTheirSteps : Obligations.PortsAreValidInTheirSteps := by
  intro i s t hmicro h
  cases i with
  | encodeU32 value cursor capacity => exact absurd rfl (hmicro value cursor capacity)
  | accept =>
    obtain ⟨r, -, rfl⟩ | ⟨-, rfl⟩ := execAccept_eq_next.mp h <;> simp
  | predict =>
    obtain ⟨w, -, rfl⟩ := execPredict_eq_next.mp h
    simp
  | scale =>
    obtain ⟨-, -, p, -, rfl⟩ := execScale_eq_next.mp h
    simp
  | lead =>
    obtain ⟨u, ⟨m, beat, rfl, -⟩, rfl⟩ := execLead_emits h
    simp
  | pair =>
    obtain ⟨-, p, -, u, ⟨m, beat, rfl, -⟩, rfl⟩ := execPair_emits h
    simp
  | last =>
    obtain ⟨-, p, -, u, ⟨m, beat, rfl, -⟩, rfl⟩ := execLast_emits h
    simp
  | done =>
    obtain ⟨-, rfl⟩ := execDone_eq_next.mp h
    simp

end Sys2Proof.Proofs
end

section
/-!
SUPPORT. The Scale Entry of a Value and the Scaler's bound (R76, R79, R85, R86).
-/
namespace Sys2Proof.Machine

/-! ### The Order function -/

/-- `leadingZeros` counts the bits that the binary size of a number leaves of `n`. -/
theorem leadingZeros_add_size {x : BitVec 64} {n : Nat} (hx : x.toNat < 2 ^ n) :
    leadingZeros x n + x.toNat.size = n := by
  induction n with
  | zero =>
    have hzero : x.toNat = 0 := by omega
    simp [leadingZeros, hzero]
  | succ n ih =>
    have hbit : x.getLsbD n = decide (2 ^ n ≤ x.toNat) := by
      rw [BitVec.getLsbD, Nat.testBit_eq_decide_div_mod_eq]
      congr 1
      rw [pow_succ] at hx
      rw [eq_iff_iff]
      constructor
      · intro h
        by_contra hlt
        rw [Nat.div_eq_of_lt (Nat.lt_of_not_le hlt)] at h
        omega
      · intro hle
        rw [Nat.div_eq_of_lt_le (k := 1) (by omega) (by omega)]
    rw [leadingZeros, hbit]
    by_cases hle : 2 ^ n ≤ x.toNat
    · have hlow := Nat.lt_size.mpr hle
      have hhigh := Nat.size_le.mpr hx
      simp only [hle, decide_true, ↓reduceIte]
      omega
    · have := ih (Nat.lt_of_not_le hle)
      simp only [hle, decide_false, Bool.false_eq_true, ↓reduceIte]
      omega

/-- The Order of `v` is 33 less the binary size of `v + 1` (R77). -/
theorem order_toNat (v : Value) : (order v).toNat = 33 - (v.toNat + 1).size := by
  have hwide : ((plusOne v).setWidth 64).toNat = v.toNat + 1 := by
    rw [BitVec.toNat_setWidth, plusOne_toNat]
    omega
  have hcount : clz64 ((plusOne v).setWidth 64) + (v.toNat + 1).size = 64 := by
    rw [clz64, ← hwide]
    exact leadingZeros_add_size (BitVec.isLt _)
  have hpos : 0 < (v.toNat + 1).size := Nat.size_pos.mpr (by omega)
  have hle : (v.toNat + 1).size ≤ 33 := Nat.size_le.mpr (by omega)
  simp only [order, BitVec.toNat_ofNat, clampOrder]
  split_ifs <;> omega

/-- Every Value lies in the bucket of its Order (R76). -/
theorem inBucket_order (v : Value) : inBucket (order v).toNat v.toNat := by
  have hpos : 0 < (v.toNat + 1).size := Nat.size_pos.mpr (by omega)
  have hle : (v.toNat + 1).size ≤ 33 := Nat.size_le.mpr (by omega)
  rw [order_toNat, inBucket]
  constructor
  · exact Nat.lt_size.mp (by omega)
  · exact Nat.size_le.mp (by omega)

/-! ### What a Scale Entry gives of its Values -/

/-- `UNIT` less what `f` digits make of the prescale: what the Scaler loses for each unit of `V + 1`, times `10^f` (R86). -/
def prescaleLoss (f pre : Nat) : Nat := Config.unit - 10 ^ f * pre

/-- What the fields `nd` and `pre` of a Scale Entry give of a Value `v` of its bucket: the Value's digits (R79), and the
three inequalities that R86 takes from the rounding of the prescale. -/
structure EntryFacts (v nd pre : Nat) : Prop where
  nd_pos : 1 ≤ nd
  nd_le : nd ≤ 10
  pre_pos : 1 ≤ pre
  le_value : nd ≤ 2 ∨ 10 ^ (nd - 2) ≤ v
  value_lt : v < 10 ^ (nd - 2 + 2)
  roundedDown : 2 * (10 ^ (nd - 2) * pre) + 10 ^ (nd - 2) ≤ 2 * Config.unit
  lossBelowTens : (Config.tens - 1) / pre * prescaleLoss (nd - 2) pre ≤ Config.unit
  lossFromTens :
    (v + 1) * (2 * prescaleLoss (nd - 2) pre - 10 ^ (nd - 2)) + 2 * 10 ^ (nd - 2) ≤ 2 * Config.unit

/-- The largest `V + 1` of the bucket of Order `k` (R75). -/
def bucketTop (k : Nat) : Nat := min (2 ^ (33 - k) - 1) (2 ^ 32)

/-- `EntryFacts` for a whole bucket: where they depend on the Value, at the end of the bucket where they are tightest. -/
def rowSound (k nd pre : Nat) : Bool :=
  decide (1 ≤ nd ∧ nd ≤ 10 ∧ 1 ≤ pre ∧ (nd ≤ 2 ∨ 10 ^ (nd - 2) + 1 ≤ 2 ^ (32 - k)) ∧ bucketTop k ≤ 10 ^ (nd - 2 + 2) ∧
    2 * (10 ^ (nd - 2) * pre) + 10 ^ (nd - 2) ≤ 2 * Config.unit ∧
    (Config.tens - 1) / pre * prescaleLoss (nd - 2) pre ≤ Config.unit ∧
    bucketTop k * (2 * prescaleLoss (nd - 2) pre - 10 ^ (nd - 2)) + 2 * 10 ^ (nd - 2) ≤ 2 * Config.unit)

/-- The 33 rows of `SCALE_ROM`, evaluated. -/
theorem scaleRom_rowSound :
    ∀ k : BitVec 6, (scaleRom k).all (fun w => rowSound k.toNat (scaleNd w).toNat (scalePre w).toNat) = true := by
  decide

/-- A sound row gives its facts for every Value of its bucket. -/
theorem entryFacts_of_rowSound {k v nd pre : Nat} (hrow : rowSound k nd pre = true) (hv : inBucket k v)
    (hlt : v < 2 ^ 32) : EntryFacts v nd pre := by
  obtain ⟨hpos, hle, hpre, hlow, hhigh, hround, hbelow, hfrom⟩ := of_decide_eq_true hrow
  obtain ⟨hmin, hmax⟩ := hv
  have htop : v + 1 ≤ bucketTop k := le_min (by omega) hlt
  exact ⟨hpos, hle, hpre, by omega, by omega, hround, hbelow, le_trans (by gcongr) hfrom⟩

/-- The Scale Entry of a Value satisfies the facts of R79 and R86. -/
theorem isEntry.facts {v : Value} {nd : BitVec 4} {pre : BitVec 57} (h : isEntry v nd pre) :
    EntryFacts v.toNat nd.toNat pre.toNat := by
  obtain ⟨w, hw, rfl, rfl⟩ := h
  have hrow := scaleRom_rowSound (order v)
  rw [hw] at hrow
  exact entryFacts_of_rowSound hrow (inBucket_order v) v.isLt

/-! ### The Scaler's bound -/

/-- The product of `SCALE` with the correction of R82, as a natural number. -/
def scaledSum (v pre : Nat) : Nat :=
  (v + 1) * pre + if Config.tens ≤ (v + 1) * pre then v / 2 else 0

/-- What `10^f` makes of the product is `V + 1` times `UNIT`, less `V + 1` times the loss. -/
theorem EntryFacts.product_add_loss {v nd pre : Nat} (h : EntryFacts v nd pre) :
    (v + 1) * pre * 10 ^ (nd - 2) + (v + 1) * prescaleLoss (nd - 2) pre = (v + 1) * Config.unit := by
  have hfits : 10 ^ (nd - 2) * pre ≤ Config.unit := by linarith [h.roundedDown, Nat.zero_le (10 ^ (nd - 2))]
  have hsum : 10 ^ (nd - 2) * pre + prescaleLoss (nd - 2) pre = Config.unit := Nat.add_sub_cancel' hfits
  calc (v + 1) * pre * 10 ^ (nd - 2) + (v + 1) * prescaleLoss (nd - 2) pre
      = (v + 1) * (10 ^ (nd - 2) * pre + prescaleLoss (nd - 2) pre) := by ring
    _ = (v + 1) * Config.unit := by rw [hsum]

/-- The loss is at least half of `10^f` (R74). -/
theorem EntryFacts.pow_le_two_mul_loss {v nd pre : Nat} (h : EntryFacts v nd pre) :
    10 ^ (nd - 2) ≤ 2 * prescaleLoss (nd - 2) pre := by
  have hround := h.roundedDown
  unfold prescaleLoss
  omega

/-- R86 without correction: below `TENS` the whole loss is at most `UNIT`. -/
theorem EntryFacts.scaledOk_of_lt_tens {v nd pre : Nat} (h : EntryFacts v nd pre)
    (htens : (v + 1) * pre < Config.tens) : scaledOk v (nd - 2) ((v + 1) * pre) := by
  have hproduct := h.product_add_loss
  have hpos : 0 < prescaleLoss (nd - 2) pre := by
    have hpow : 0 < 10 ^ (nd - 2) := by positivity
    have hhalf := h.pow_le_two_mul_loss
    omega
  have hlose : 0 < (v + 1) * prescaleLoss (nd - 2) pre := Nat.mul_pos v.succ_pos hpos
  have hloss : (v + 1) * prescaleLoss (nd - 2) pre ≤ Config.unit :=
    le_trans (Nat.mul_le_mul_right _ ((Nat.le_div_iff_mul_le h.pre_pos).mpr (by omega))) h.lossBelowTens
  constructor <;> linarith

/-- R86 with correction: half of `V` makes up for all of the loss but at most `UNIT`, and for less than all of it. -/
theorem EntryFacts.scaledOk_of_correction {v nd pre : Nat} (h : EntryFacts v nd pre) :
    scaledOk v (nd - 2) ((v + 1) * pre + v / 2) := by
  have hproduct := h.product_add_loss
  have hhalf := h.pow_le_two_mul_loss
  have hfrom := h.lossFromTens
  have hpow : 0 < 10 ^ (nd - 2) := by positivity
  unfold scaledOk
  generalize prescaleLoss (nd - 2) pre = loss at *
  generalize 10 ^ (nd - 2) = D at *
  have hexcess : (v + 1) * (2 * loss - D) + (v + 1) * D = (v + 1) * (2 * loss) := by
    rw [← Nat.mul_add, Nat.sub_add_cancel hhalf]
  have hlow : (v + 1) * D ≤ (2 * (v / 2) + 2) * D := Nat.mul_le_mul_right _ (by omega)
  have hhigh : 2 * (v / 2) * D ≤ v * D := Nat.mul_le_mul_right _ (by omega)
  have hcover : (v + 1) * D ≤ (v + 1) * (2 * loss) := Nat.mul_le_mul_left _ hhalf
  constructor <;> linarith

/-- The Scaler's postcondition (R85). -/
theorem EntryFacts.scaledOk_scaledSum {v nd pre : Nat} (h : EntryFacts v nd pre) : scaledOk v (nd - 2) (scaledSum v pre) := by
  unfold scaledSum
  split
  · exact h.scaledOk_of_correction
  · exact h.scaledOk_of_lt_tens (by omega)

/-- An accumulator that the Scaler leaves is below `100 * UNIT` (R84). -/
theorem EntryFacts.lt_of_scaledOk {v nd pre x : Nat} (h : EntryFacts v nd pre)
    (hx : scaledOk v (nd - 2) x) : x < 100 * Config.unit := by
  have hpow : 0 < 10 ^ (nd - 2) := by positivity
  refine Nat.lt_of_mul_lt_mul_right (a := 10 ^ (nd - 2)) ?_
  calc x * 10 ^ (nd - 2) < (v + 1) * Config.unit := hx.2
    _ ≤ 10 ^ (nd - 2 + 2) * Config.unit := Nat.mul_le_mul_right _ h.value_lt
    _ = 100 * Config.unit * 10 ^ (nd - 2) := by ring

end Sys2Proof.Machine
end

section
/-!
SUPPORT. The digits of a call: how many a Value has, and how the accumulator carries those still to be emitted (R96 to R98).
-/
namespace Sys2Proof.Machine

/-! ### The digit count -/

/-- A number of `d + 1` digits (R8). -/
theorem ndigits_of_bounds {v d : Nat} (hlow : 10 ^ d ≤ v) (hhigh : v < 10 ^ (d + 1)) : ndigits v = d + 1 := by
  have hv : v ≠ 0 := by
    have : 0 < 10 ^ d := by positivity
    omega
  rw [ndigits, if_neg hv, Nat.log_eq_of_pow_le_of_lt_pow hlow hhigh]

/-- A number below 10 has one digit, 0 included (R8). -/
theorem ndigits_of_lt_ten {v : Nat} (h : v < 10) : ndigits v = 1 := by
  rcases Nat.eq_zero_or_pos v with rfl | hpos
  · rfl
  · exact ndigits_of_bounds (d := 0) (by omega) (by omega)

/-- The digit count of a Value from the `ND` of its Scale Entry: `f + 1` below `10^(f+1)`, else `f + 2` (R79). -/
theorem EntryFacts.ndigits_eq {v nd pre : Nat} (h : EntryFacts v nd pre) :
    ndigits v = (if 10 ^ (nd - 2 + 1) ≤ v then 2 else 1) + (nd - 2) := by
  split
  · next hle => rw [ndigits_of_bounds hle h.value_lt]; omega
  · next hlt =>
    rcases h.le_value with hnd | hlow
    · have hzero : nd - 2 = 0 := by omega
      rw [hzero] at hlt ⊢
      exact ndigits_of_lt_ten (by omega)
    · rw [ndigits_of_bounds hlow (by omega)]; omega

/-! ### Outstanding digits -/

/-- Outstanding digits are carried as the Scaler carries a whole Value. -/
theorem carriesDigits_iff {v r x : Nat} : carriesDigits v r x ↔ scaledOk (v % 10 ^ r) r x := Iff.rfl

/-- Multiplying the accumulator by `10^k` moves `k` digits in front of the point. -/
theorem scaledOk.shift {m r k x : Nat} (h : scaledOk m (r + k) x) : scaledOk m r (x * 10 ^ k) := by
  unfold scaledOk at *
  rwa [mul_assoc, ← pow_add, Nat.add_comm k r]

/-- The integer part of the accumulator is the number without its last `r` digits (R97). -/
theorem scaledOk.div_unit {m r x : Nat} (h : scaledOk m r x) : x / Config.unit = m / 10 ^ r := by
  have hpow : 0 < 10 ^ r := by positivity
  have hunit : 0 < Config.unit := by decide
  obtain ⟨hlow, hhigh⟩ := h
  refine Nat.div_eq_of_lt_le ?_ ?_
  · refine Nat.le_of_mul_le_mul_right ?_ hpow
    calc m / 10 ^ r * Config.unit * 10 ^ r = m / 10 ^ r * 10 ^ r * Config.unit := by ring
      _ ≤ m * Config.unit := Nat.mul_le_mul_right _ (Nat.div_mul_le_self m (10 ^ r))
      _ ≤ x * 10 ^ r := hlow
  · refine Nat.lt_of_mul_lt_mul_right (a := 10 ^ r) ?_
    calc x * 10 ^ r < (m + 1) * Config.unit := hhigh
      _ ≤ (m / 10 ^ r + 1) * 10 ^ r * Config.unit :=
        Nat.mul_le_mul_right _ (by rw [Nat.mul_comm]; exact Nat.lt_mul_div_succ m hpow)
      _ = (m / 10 ^ r + 1) * Config.unit * 10 ^ r := by ring

/-- The fraction of the accumulator carries the last `r` digits (R98). -/
theorem scaledOk.carriesDigits_mod {m r x : Nat} (h : scaledOk m r x) : carriesDigits m r (x % Config.unit) := by
  have hx := Nat.div_add_mod x Config.unit
  have hm := Nat.div_add_mod m (10 ^ r)
  rw [h.div_unit] at hx
  obtain ⟨hlow, hhigh⟩ := h
  have hwhole : x * 10 ^ r = m / 10 ^ r * 10 ^ r * Config.unit + x % Config.unit * 10 ^ r := by
    conv_lhs => rw [← hx]
    ring
  have hparts : m * Config.unit = m / 10 ^ r * 10 ^ r * Config.unit + m % 10 ^ r * Config.unit := by
    conv_lhs => rw [← hm]
    ring
  unfold carriesDigits
  constructor <;> linarith

/-- A step of the extraction takes `k` digits off the outstanding ones (R92, R93, R98). -/
theorem carriesDigits.step {v r k x : Nat} (h : carriesDigits v (r + k) x) :
    carriesDigits v r (x * 10 ^ k % Config.unit) := by
  have hrest := (carriesDigits_iff.mp h).shift.carriesDigits_mod
  rwa [carriesDigits_iff, Nat.mod_mod_of_dvd v (pow_dvd_pow 10 (Nat.le_add_right r k))] at hrest

/-- The accumulator reaches `TENS` exactly when two digits stand before the last `r` (R97). -/
theorem scaledOk.tens_le_iff {m r x : Nat} (h : scaledOk m r x) : Config.tens ≤ x ↔ 10 ^ (r + 1) ≤ m := by
  have htens : Config.tens = 10 * Config.unit := rfl
  rw [htens, ← Nat.le_div_iff_mul_le (by decide), h.div_unit, Nat.le_div_iff_mul_le (by positivity), pow_succ, mul_comm]

/-- `SCALE` leaves the corrected product, which does not wrap (R81, R84). -/
theorem EntryFacts.scale_toNat {v : Value} {nd pre : Nat} (h : EntryFacts v.toNat nd pre) {p : Acc}
    (hp : p.toNat = (v.toNat + 1) * pre) : (p + correction p v).toNat = scaledSum v.toNat pre := by
  have hlt := h.lt_of_scaledOk h.scaledOk_scaledSum
  have hunit : 100 * Config.unit < 2 ^ 64 := by decide
  rw [BitVec.toNat_add, correction_toNat, hp]
  exact Nat.mod_eq_of_lt (hlt.trans hunit)

end Sys2Proof.Machine
end

section
/-!
SUPPORT. What a step does by the phase it starts in, and the invariant of the call phase by phase.
-/
namespace Sys2Proof.Machine

/-! ### Fetch -/

/-- The byte of a phase code decodes as the phase code. -/
theorem decode_phaseByte (aw : Nat) (p : BitVec 3) : decode aw [phaseByte p] = decodePhase p := by
  have hp : (phaseByte p).setWidth 3 = p := BitVec.setWidth_setWidth_of_le p (by decide)
  rw [decode, hp]

/-- A request record decodes as a request: with a legal `AW` (R7, R51) it is never short enough to be a phase byte. -/
theorem decode_of_length {aw : Nat} (haw : awLegal aw = true) {bytes : List Byte} (hlen : bytes.length = reqBytes aw) :
    decode aw bytes = .ok (decodeRequest aw (ofBytesLE bytes)) := by
  have haw : 4 ≤ aw := of_decide_eq_true haw
  have hlong : 2 ≤ reqBytes aw := by unfold reqBytes reqBits; omega
  match bytes with
  | [] => exact if_pos hlen
  | [b] => simp only [List.length_singleton] at hlen; omega
  | b :: c :: rest => exact if_pos hlen

/-- A step fetches the phase code, except in `IDLE`, where a request record may be fetched (R54, R59). -/
theorem fetch_cases (s : State) :
    s.fetch = [phaseByte s.phase] ∨ s.phase = Phase.idle ∧ s.fetch.length = reqBytes s.aw := by
  unfold State.fetch
  split
  · split
    · exact .inr ⟨‹_›, Laws.length_bytesLE _ _⟩
    · exact .inl rfl
  · exact .inl rfl

/-- Everything a step can do when it answers a next state, by what selects its instruction: a reset step, the operation
`ENCODE_U32` taken in `IDLE`, or the micro-operation of the phase (R54, R59, R115, R150). -/
theorem step_cases {s t : State} (haw : awLegal s.aw = true) (h : step s = .next t) :
    t = s.settle s.resetStep ∨
    (s.phase = Phase.idle ∧ ∃ value cursor capacity u,
      execEncodeU32 value cursor capacity s = .next u ∧ t = s.settle u) ∨
    ∃ i u, decodePhase s.phase = .ok i ∧ exec i s = .next u ∧ t = s.settle u := by
  obtain ⟨-, rfl⟩ | ⟨-, i, u, hdecode, hexec, rfl⟩ := step_eq_next.mp h
  · exact .inl rfl
  · rcases fetch_cases s with hfetch | ⟨hidle, hlen⟩
    · rw [hfetch, decode_phaseByte] at hdecode
      exact .inr (.inr ⟨i, u, hdecode, hexec, rfl⟩)
    · rw [decode_of_length haw hlen] at hdecode
      cases hdecode
      exact .inr (.inl ⟨hidle, _, _, _, u, hexec, rfl⟩)

/-- Each phase code selects its micro-operation, and 111 none (R54, R60). -/
theorem decodePhase_cases (p : BitVec 3) :
    (p = Phase.idle ∧ decodePhase p = .ok .accept) ∨ (p = Phase.predict ∧ decodePhase p = .ok .predict) ∨
    (p = Phase.scale ∧ decodePhase p = .ok .scale) ∨ (p = Phase.lead ∧ decodePhase p = .ok .lead) ∨
    (p = Phase.pair ∧ decodePhase p = .ok .pair) ∨ (p = Phase.last ∧ decodePhase p = .ok .last) ∨
    (p = Phase.done ∧ decodePhase p = .ok .done) ∨
    (p = 0b111#3 ∧ decodePhase p = .error .reservedPhase) := by
  revert p
  decide

/-! ### The invariant of the call, phase by phase -/

/-- The part of the invariant that is about the call in progress: a phase other than the reserved one, and what holds of
the registers in that phase. -/
def callOk (s : State) : Prop := s.phase ≠ 0b111#3 ∧ callInv s

theorem inv_iff {s : State} :
    inv s ↔ awLegal s.aw = true ∧ fitsAddr s.aw s.cur = true ∧ fitsAddr s.aw s.cap = true ∧ InSpace s.aw s.out ∧
      callOk s := by
  unfold inv InSpace callOk
  tauto

/-- At `LEAD` the accumulator is as the Scaler leaves it, for the digits in `REM` (R83, R85). -/
def leadingOk (s : State) : Prop :=
  acceptedOk s ∧ predictedOk s ∧ s.rem = rem0 s.nd ∧ scaledOk s.v.toNat s.rem.toNat s.frac.toNat

/-- At `DONE` the call has failed for its capacity, or has written all its digits (R96, R134). -/
def finishedOk (s : State) : Prop :=
  (s.st = 1#1 ∧ s.len = 0#4 ∧ s.cap < Config.maxDigits) ∨
  (s.st = 0#1 ∧ Config.maxDigits ≤ s.cap ∧ s.len.toNat = ndigits s.v.toNat)

/-- What the invariant of the call says in each phase. -/
theorem callOk_iff {s : State} :
    callOk s ↔ s.phase = Phase.idle ∨ (s.phase = Phase.predict ∧ acceptedOk s) ∨
      (s.phase = Phase.scale ∧ acceptedOk s ∧ predictedOk s) ∨ (s.phase = Phase.lead ∧ leadingOk s) ∨
      (s.phase = Phase.pair ∧ extractingOk s ∧ 2 ≤ s.rem.toNat) ∨
      (s.phase = Phase.last ∧ extractingOk s ∧ s.rem.toNat = 1) ∨ (s.phase = Phase.done ∧ finishedOk s) := by
  unfold callOk callInv leadingOk finishedOk
  rcases decodePhase_cases s.phase with ⟨hp, -⟩ | ⟨hp, -⟩ | ⟨hp, -⟩ | ⟨hp, -⟩ | ⟨hp, -⟩ | ⟨hp, -⟩ | ⟨hp, -⟩ | ⟨hp, -⟩ <;>
    simp [hp, Phase.idle, Phase.predict, Phase.scale, Phase.lead, Phase.pair, Phase.last, Phase.done]

/-- In `IDLE` no call is in progress. -/
theorem callOk_of_idle {s : State} (hp : s.phase = Phase.idle) : callOk s := callOk_iff.mpr (.inl hp)

theorem callOk_of_finished {s : State} (hp : s.phase = Phase.done) (h : finishedOk s) : callOk s :=
  callOk_iff.mpr (.inr (.inr (.inr (.inr (.inr (.inr ⟨hp, h⟩))))))

/-- The surroundings change nothing that the invariant of the call speaks of. -/
theorem callOk_settle {s t : State} (h : callOk t) : callOk (s.settle t) := h

/-- During the extraction `REM` chooses the phase, and with no digit outstanding the call is finished (R95, R96). -/
theorem callOk_of_extracting {s : State} (hp : s.phase = afterPhase s.rem) (h : extractingOk s) : callOk s := by
  obtain ⟨hrem, hafter⟩ | ⟨hrem, hafter⟩ | ⟨hrem, hafter⟩ := afterPhase_cases s.rem
  · exact callOk_iff.mpr (.inr (.inr (.inr (.inr (.inl ⟨hp.trans hafter, h, hrem⟩)))))
  · exact callOk_iff.mpr (.inr (.inr (.inr (.inr (.inr (.inl ⟨hp.trans hafter, h, hrem⟩))))))
  · obtain ⟨hst, hcap, -, -, -, hcount, -⟩ := h
    exact callOk_of_finished (hp.trans hafter) (.inr ⟨hst, hcap, by omega⟩)

/-! ### Every micro-operation keeps it -/

/-- A latched request is accepted, or the call has failed for its capacity (R117, R134). -/
theorem acceptRequest_callOk (r : Request) (s : State) : callOk (acceptRequest r s) := by
  by_cases hcap : r.capacity < 10
  · have hfinished : finishedOk (acceptRequest r s) := .inl (by simp [hcap])
    exact callOk_of_finished (by simp [hcap]) hfinished
  · have hlarge := Nat.le_of_not_lt hcap
    have haccepted : acceptedOk (acceptRequest r s) := by simp [acceptedOk, hlarge]
    exact callOk_iff.mpr (.inr (.inl ⟨by simp [hcap], haccepted⟩))

theorem execAccept_callOk {s t : State} (hp : s.phase = Phase.idle) (h : execAccept s = .next t) : callOk t := by
  obtain ⟨r, -, rfl⟩ | ⟨-, rfl⟩ := execAccept_eq_next.mp h
  · exact acceptRequest_callOk r s
  · exact callOk_of_idle hp

/-- `PREDICT` reads the Scale Entry that the invariant asks for (R72). -/
theorem execPredict_callOk {s t : State} (haccepted : acceptedOk s) (h : execPredict s = .next t) : callOk t := by
  obtain ⟨w, hw, rfl⟩ := execPredict_eq_next.mp h
  exact callOk_iff.mpr (.inr (.inr (.inl ⟨rfl, haccepted, rfl, w, hw, rfl, rfl⟩)))

/-- `SCALE` establishes the Scaler's postcondition (R85). -/
theorem execScale_callOk {s t : State} (haccepted : acceptedOk s) (hpredicted : predictedOk s)
    (h : execScale s = .next t) : callOk t := by
  obtain ⟨-, -, p, hp, rfl⟩ := execScale_eq_next.mp h
  have hfacts := hpredicted.2.facts
  have hscaled : scaledOk s.v.toNat (rem0 s.nd).toNat (p + correction p s.v).toNat := by
    rw [rem0_toNat, hfacts.scale_toNat hp]
    exact hfacts.scaledOk_scaledSum
  exact callOk_iff.mpr (.inr (.inr (.inr (.inl ⟨rfl, haccepted, hpredicted, rfl, hscaled⟩))))

/-- What an emission of `n` digits has to meet to leave the call between two digits, or finished (R96). -/
theorem Emits.callOk {n : Nat} {s u : State} (h : Emits n s.beginStep u) (hn : 1 ≤ n) (hst : s.st = 0#1)
    (hcap : Config.maxDigits ≤ s.cap) (hpredicted : predictedOk s) {frac : Acc} {rem : BitVec 4}
    (hfrac : frac.toNat < Config.unit) (hcount : s.len.toNat + n + rem.toNat = ndigits s.v.toNat)
    (hcarries : carriesDigits s.v.toNat rem.toNat frac.toNat) :
    callOk { u with frac := frac, rem := rem, phase := afterPhase rem } := by
  have hlen : u.len.toNat = s.len.toNat + n := h.len_toNat
  have hpos : 1 ≤ u.len.toNat := by omega
  rw [← hlen] at hcount
  refine callOk_of_extracting rfl ?_
  obtain ⟨m, beat, rfl, -⟩ := h
  exact ⟨hst, hcap, hpredicted, hfrac, hpos, hcount, hcarries⟩

/-- `LEAD` emits one or two digits, as many as the Value has before its last `REM` (R96, R97). -/
theorem execLead_callOk {s t : State} (hleading : leadingOk s) (h : execLead s = .next t) : callOk t := by
  obtain ⟨⟨hst, hlen, hcap⟩, hpredicted, hrem, hscaled⟩ := hleading
  obtain ⟨u, hemits, rfl⟩ := execLead_emits h
  have hremNat : s.rem.toNat = s.nd.toNat - 2 := by rw [hrem, rem0_toNat]
  have hcount : s.len.toNat + (if Config.tens ≤ s.frac.toNat then 2 else 1) + s.rem.toNat = ndigits s.v.toNat := by
    rw [if_congr hscaled.tens_le_iff rfl rfl, hpredicted.2.facts.ndigits_eq, hlen, hremNat]
    simp
  refine hemits.callOk (by split <;> decide) hst hcap hpredicted (fpart_lt _) hcount ?_
  rw [fpart_toNat]
  exact hscaled.carriesDigits_mod

/-- `PAIR` takes two digits off the outstanding ones (R92, R96). -/
theorem execPair_callOk {s t : State} (hextracting : extractingOk s) (h : execPair s = .next t) : callOk t := by
  obtain ⟨hst, hcap, hpredicted, -, -, hdigits, hcarries⟩ := hextracting
  obtain ⟨htwo, p, hp, u, hemits, rfl⟩ := execPair_emits h
  have hrem : s.rem.toNat = (s.rem - 2#4).toNat + 2 := by
    rw [BitVec.toNat_sub_of_le htwo]
    exact (Nat.sub_add_cancel htwo).symm
  refine hemits.callOk (by decide) hst hcap hpredicted (fpart_lt _) (by omega) ?_
  rw [fpart_toNat, hp]
  exact (hrem ▸ hcarries).step (k := 2)

/-- `LAST` takes the last outstanding digit (R93, R96). -/
theorem execLast_callOk {s t : State} (hextracting : extractingOk s) (h : execLast s = .next t) : callOk t := by
  obtain ⟨hst, hcap, hpredicted, -, -, hdigits, hcarries⟩ := hextracting
  obtain ⟨hone, p, hp, u, hemits, rfl⟩ := execLast_emits h
  rw [hone] at hdigits hcarries
  refine hemits.callOk (rem := 0#4) (by decide) hst hcap hpredicted (fpart_lt _) hdigits ?_
  rw [fpart_toNat, hp]
  exact hcarries.step (r := 0) (k := 1)

/-- The micro-operation of the phase keeps the invariant of the call. -/
theorem exec_callOk {i : Instr} {s t : State} (hcall : callOk s) (hphase : decodePhase s.phase = .ok i)
    (h : exec i s = .next t) : callOk t := by
  obtain hp | ⟨hp, haccepted⟩ | ⟨hp, haccepted, hpredicted⟩ | ⟨hp, hleading⟩ | ⟨hp, hextracting, -⟩ |
    ⟨hp, hextracting, -⟩ | ⟨hp, -⟩ := callOk_iff.mp hcall <;>
    rw [hp] at hphase <;> cases hphase
  · exact execAccept_callOk hp h
  · exact execPredict_callOk haccepted h
  · exact execScale_callOk haccepted hpredicted h
  · exact execLead_callOk hleading h
  · exact execPair_callOk hextracting h
  · exact execLast_callOk hextracting h
  · obtain ⟨-, rfl⟩ := execDone_eq_next.mp h
    exact callOk_of_idle rfl

/-- An operation taken in `IDLE` is over when it answers (R119, R136). -/
theorem execEncodeU32_phase {value : Value} {cursor capacity : Nat} {s t : State} (hp : s.phase = Phase.idle)
    (h : execEncodeU32 value cursor capacity s = .next t) : t.phase = Phase.idle := by
  obtain ⟨-, -, rfl⟩ | ⟨-, -, hfinish⟩ | ⟨hbusy, -⟩ := execEncodeU32_eq_next.mp h
  · rfl
  · obtain ⟨predicted, scaled, led, paired, ended, -, -, -, -, -, hdone⟩ := finishCall_eq_next.mp hfinish
    obtain ⟨-, rfl⟩ := execDone_eq_next.mp hdone
    rfl
  · exact absurd hp hbusy

/-- Every step keeps the invariant of the call. -/
theorem step_callOk {s t : State} (haw : awLegal s.aw = true) (hcall : callOk s) (h : step s = .next t) : callOk t := by
  obtain rfl | ⟨hp, value, cursor, capacity, u, hu, rfl⟩ | ⟨i, u, hphase, hu, rfl⟩ := step_cases haw h
  · exact callOk_of_idle rfl
  · exact callOk_settle (callOk_of_idle (execEncodeU32_phase hp hu))
  · exact callOk_settle (exec_callOk hcall hphase hu)

end Sys2Proof.Machine

namespace Sys2Proof.Proofs
open Sys2Proof.Machine

/-- Settles O47: the address space by `step_keepsSpace`, the call in progress by `step_callOk`. -/
theorem stepKeepsTheInvariant : Obligations.StepKeepsTheInvariant := by
  intro s t hinv hstep
  obtain ⟨haw, hcur, hcap, hout, hcall⟩ := inv_iff.mp hinv
  have hkeeps := step_keepsSpace hstep
  rw [inv_iff, hkeeps.aw]
  exact ⟨haw, hkeeps.cur hcur, hkeeps.cap hcap, hkeeps.out hout, step_callOk haw hcall hstep⟩

/-- Settles O45: the four values of the reset state. -/
theorem resetStateIsIdle : Obligations.ResetStateIsIdle := ⟨rfl, rfl, rfl, rfl⟩

/-- Settles O46: 0 is an address of every width, nothing is listed of `OUT`, and no call is in progress. -/
theorem resetSatisfiesTheInvariant : Obligations.ResetSatisfiesTheInvariant := by
  intro aw inputs haw
  have hzero : fitsAddr aw 0 = true := decide_eq_true (Nat.two_pow_pos aw)
  exact inv_iff.mpr ⟨haw, hzero, hzero, ⟨reset_out_wf, fun c hc => absurd hc List.not_mem_nil⟩, callOk_of_idle rfl⟩

end Sys2Proof.Proofs
end

section
/-!
SUPPORT. What the micro-operations write to `OUT`: the beat of each one, what memory reads after it, and the digits at
`DONE` (R32, R33, R41).
-/
namespace Sys2Proof.Machine

/-! ### The beat of a micro-operation -/

/-- Going from `s` to `t` presents no beat and keeps `OUT`, or presents one beat at the cursor of `s` and performs it: with
one byte, or with two, lane 0 first (R33, R40). The last argument counts the bytes. -/
inductive PerformsBeat (s t : State) : Nat → Prop
  | none (hwr : t.wr = none) (hout : t.out = s.out) : PerformsBeat s t 0
  | one (lane0 lane1 : Byte) (hwr : t.wr = some ⟨s.cur, lane0, lane1, 0b01#2⟩)
      (hout : t.out = s.out.write (wrapAddr s.aw s.cur) lane0) : PerformsBeat s t 1
  | two (lane0 lane1 : Byte) (hwr : t.wr = some ⟨s.cur, lane0, lane1, 0b11#2⟩)
      (hout : t.out = (s.out.write (wrapAddr s.aw s.cur) lane0).write (wrapAddr s.aw (s.cur + 1)) lane1) :
      PerformsBeat s t 2

/-- A one-digit emission performs a one-byte beat, whatever becomes of `FRAC`, `REM` and `PHASE` after it. -/
theorem performsBeat_of_emitDigit {q : Key} {s u : State} (h : emitDigit q s.beginStep = .next u) (frac : Acc)
    (rem : BitVec 4) (phase : BitVec 3) : PerformsBeat s { u with frac := frac, rem := rem, phase := phase } 1 := by
  obtain ⟨-, -, rfl⟩ := emitDigit_eq_next.mp h
  exact .one _ _ rfl rfl

/-- A two-digit emission performs a two-byte beat, whatever becomes of `FRAC`, `REM` and `PHASE` after it. -/
theorem performsBeat_of_emitPair {q : Key} {s u : State} (h : emitPair q s.beginStep = .next u) (frac : Acc)
    (rem : BitVec 4) (phase : BitVec 3) : PerformsBeat s { u with frac := frac, rem := rem, phase := phase } 2 := by
  obtain ⟨w, -, -, rfl⟩ := emitPair_eq_next.mp h
  exact .two _ _ rfl rfl

/-- `LEAD` performs a two-byte beat when `FRAC` is at least `TENS`, else a one-byte beat (R91). -/
theorem execLead_performsBeat {s t : State} (h : execLead s = .next t) :
    PerformsBeat s t (if Config.tens ≤ s.frac.toNat then 2 else 1) := by
  obtain ⟨u, hu, rfl⟩ := execLead_eq_next.mp h
  by_cases htens : Config.tens ≤ s.frac.toNat
  · rw [if_pos ((atLeastTens_iff _).mpr htens)] at hu
    rw [if_pos htens]
    exact performsBeat_of_emitPair hu _ u.rem _
  · rw [if_neg (mt (atLeastTens_iff _).mp htens)] at hu
    rw [if_neg htens]
    exact performsBeat_of_emitDigit hu _ u.rem _

/-- Every micro-operation performs the beat of the bytes it emits (R33). -/
theorem exec_performsBeat {i : Instr} {s t : State} (hmicro : isMicroOp i) (h : exec i s = .next t) :
    PerformsBeat s t (bytesEmitted i s) := by
  cases i with
  | encodeU32 value cursor capacity => exact absurd rfl (hmicro value cursor capacity)
  | accept =>
    obtain ⟨r, -, rfl⟩ | ⟨-, rfl⟩ := execAccept_eq_next.mp h
    · exact .none (acceptRequest_wr r s) (acceptRequest_out r s)
    · exact .none rfl rfl
  | predict =>
    obtain ⟨w, -, rfl⟩ := execPredict_eq_next.mp h
    exact .none rfl rfl
  | scale =>
    obtain ⟨-, -, p, -, rfl⟩ := execScale_eq_next.mp h
    exact .none rfl rfl
  | lead => exact execLead_performsBeat h
  | pair =>
    obtain ⟨-, p, -, u, hu, rfl⟩ := execPair_eq_next.mp h
    exact performsBeat_of_emitPair hu _ _ _
  | last =>
    obtain ⟨-, p, -, u, hu, rfl⟩ := execLast_eq_next.mp h
    exact performsBeat_of_emitDigit hu _ _ _
  | done =>
    obtain ⟨-, rfl⟩ := execDone_eq_next.mp h
    exact .none rfl rfl

/-- A beat of `n` bytes leaves every address alone but the `n` from the cursor on (R33). -/
theorem PerformsBeat.read_of_ne {s t : State} {n a : Nat} (h : PerformsBeat s t n)
    (ha : ∀ j < n, a ≠ wrapAddr s.aw (s.cur + j)) : t.out.read a = s.out.read a := by
  cases h with
  | none _ hout => rw [hout]
  | one _ _ _ hout =>
    have hcur : a ≠ wrapAddr s.aw s.cur := ha 0 (by decide)
    rw [hout, Memory.read_write_of_ne _ _ hcur]
  | two _ _ _ hout =>
    have hcur : a ≠ wrapAddr s.aw s.cur := ha 0 (by decide)
    rw [hout, Memory.read_write_of_ne _ _ (ha 1 (by decide)), Memory.read_write_of_ne _ _ hcur]

/-- A beat that stands on the write port is at the cursor and performed, with `wr_be` 01 or 11 (R33, R40). -/
theorem PerformsBeat.of_wr_eq_some {s t : State} {n : Nat} {b : WriteBeat} (h : PerformsBeat s t n)
    (hb : t.wr = some b) :
    b.addr = s.cur ∧
    ((b.be = 0b01#2 ∧ t.out = s.out.write (wrapAddr s.aw b.addr) b.lane0) ∨
     (b.be = 0b11#2 ∧
      t.out = (s.out.write (wrapAddr s.aw b.addr) b.lane0).write (wrapAddr s.aw (b.addr + 1)) b.lane1)) := by
  cases h with
  | none hwr _ => simp [hwr] at hb
  | one _ _ hwr hout =>
    obtain rfl := Option.some.inj (hwr.symm.trans hb)
    exact ⟨rfl, .inl ⟨rfl, hout⟩⟩
  | two _ _ hwr hout =>
    obtain rfl := Option.some.inj (hwr.symm.trans hb)
    exact ⟨rfl, .inr ⟨rfl, hout⟩⟩

/-! ### Two bytes read back -/

@[simp] theorem memRead_zero (aw : Nat) (m : Memory) (a : Nat) : memRead aw m a 0 = [] := rfl

theorem memRead_succ (aw : Nat) (m : Memory) (a n : Nat) :
    memRead aw m a (n + 1) = m.read (wrapAddr aw a) :: memRead aw m (a + 1) n := rfl

/-- The two bytes of a two-byte write are read back, the lower address first: the second write does not reach round to the
first, because `AW >= 4` (R7, R32). -/
theorem memRead_write_two {aw : Nat} (haw : awLegal aw = true) (m : Memory) (a : Nat) (x y : Byte) :
    memRead aw ((m.write (wrapAddr aw a) x).write (wrapAddr aw (a + 1)) y) a 2 = [some x, some y] := by
  have hne : wrapAddr aw (a + 0) ≠ wrapAddr aw (a + 1) := wrapAddr_ne haw a (by decide) (by decide) (by decide)
  rw [Nat.add_zero] at hne
  rw [memRead_succ, memRead_succ, memRead_zero, Memory.read_write_of_ne _ _ hne, Memory.read_write_same,
    Memory.read_write_same]

/-- The 100 words of `PAIR_ROM`, evaluated. -/
theorem pairRom_all_asciiDigits :
    ∀ q : Key, (pairRom q).all (fun w =>
      pairTens w == asciiDigit (q.toNat / 10) && pairOnes w == asciiDigit (q.toNat % 10)) = true := by
  decide

/-- A word of `PAIR_ROM` holds the two digit characters of its key (R111). -/
theorem pairRom_asciiDigits {q : Key} {w : BitVec 16} (h : pairRom q = some w) :
    pairTens w = asciiDigit (q.toNat / 10) ∧ pairOnes w = asciiDigit (q.toNat % 10) := by
  have hword := pairRom_all_asciiDigits q
  rw [h] at hword
  simpa using hword

/-! ### The end of a call -/

/-- A Value has at most `MAX_DIGITS` digits (R6, R8). -/
theorem ndigits_le_maxDigits (v : Value) : ndigits v.toNat ≤ Config.maxDigits := by
  unfold ndigits
  split
  · decide
  · have hlog : Nat.log 10 v.toNat < 10 := Nat.log_lt_of_lt_pow ‹_› (by omega)
    exact hlog

/-- `dec(v)` is as long as the digit count of `v` (R8). -/
theorem length_dec (v : Nat) : (dec v).length = ndigits v := by
  unfold dec ndigits
  split
  · rfl
  · rw [List.length_map, List.length_reverse, Nat.length_digits _ _ (by decide) ‹_›]

/-- The cursor is `LEN` bytes past the one the call started from (R36, R96). -/
theorem wrapAddr_callStart_add_len {s : State} (haw : awLegal s.aw = true) (hcur : fitsAddr s.aw s.cur = true) :
    wrapAddr s.aw (callStart s + s.len.toNat) = s.cur := by
  have hcur : s.cur < 2 ^ s.aw := of_decide_eq_true hcur
  have hpow : 2 ^ 4 ≤ 2 ^ s.aw := Nat.pow_le_pow_right (by decide) (of_decide_eq_true haw)
  have hlen : s.len.toNat ≤ s.cur + 2 ^ s.aw := by omega
  rw [callStart, wrapAddr_add, Nat.sub_add_cancel hlen, wrapAddr, Nat.add_mod_right, Nat.mod_eq_of_lt hcur]

/-- A call that has come to `DONE` without a fault has written as many bytes as the Value has digits (R96). -/
theorem len_of_done_ok {s : State} (hcall : callOk s) (hphase : s.phase = Phase.done) (hst : s.st = 0#1) :
    s.len.toNat = ndigits s.v.toNat := by
  obtain ⟨-, -, -, -, -, -, hdone⟩ := hcall
  obtain ⟨hfault, -, -⟩ | ⟨-, -, hlen⟩ := hdone hphase
  · exact absurd (hfault.symm.trans hst) (by decide)
  · exact hlen

/-- Outside `IDLE` a step that is no reset step runs the micro-operation of the phase (R54, R115). -/
theorem step_of_busy {s : State} {i : Instr} (hbusy : s.phase ≠ Phase.idle) (hrst : s.portIn.rst = false)
    (hphase : decodePhase s.phase = .ok i) : step s = andThen (exec i s) fun t => .next (s.settle t) := by
  have hfetch : s.fetch = [phaseByte s.phase] := (fetch_cases s).resolve_right fun h => hbusy h.1
  simp [step, hrst, hfetch, decode_phaseByte, hphase]

/-- A finished call without fault has written the whole of `dec(V)` (R41, R101). -/
theorem memRead_dec_of_finished {s : State} (hprefix : prefixWritten s) (hphase : s.phase = Phase.done) (hst : s.st = 0#1)
    (hlen : s.len.toNat = ndigits s.v.toNat) :
    memRead s.aw s.out (callStart s) (ndigits s.v.toNat) = (dec s.v.toNat).map some := by
  have hbusy : s.phase ≠ Phase.idle := by rw [hphase]; decide
  have hwritten := hprefix hbusy hst
  rwa [hlen, List.take_of_length_le (length_dec _).le] at hwritten

/-! ### Other agents' writes -/

theorem foreignWrites_append (aw : Nat) (m : Memory) (cs ds : List Host.Cell) :
    foreignWrites aw m (cs ++ ds) = foreignWrites aw (foreignWrites aw m cs) ds := by
  induction cs generalizing m with
  | nil => rfl
  | cons c cs ih => exact ih _

/-- The last of the other agents' writes is read back (R45). -/
theorem foreignWrites_read_last (aw : Nat) (m : Memory) (cs : List Host.Cell) (a : Nat) (b : Byte) :
    (foreignWrites aw m (cs ++ [(a, b)])).read (wrapAddr aw a) = some b := by
  rw [foreignWrites_append, foreignWrites_cons, foreignWrites_nil, Memory.read_write_same]

/-- The other agents' writes land last, in a reset step too (R45, R155). -/
theorem step_out {s t : State} (h : step s = .next t) : ∃ m, t.out = foreignWrites s.aw m s.portIn.foreign := by
  obtain ⟨-, rfl⟩ | ⟨-, i, u, -, -, rfl⟩ := step_eq_next.mp h
  · exact ⟨_, rfl⟩
  · exact ⟨_, rfl⟩

end Sys2Proof.Machine

namespace Sys2Proof.Proofs
open Sys2Proof.Machine

/-- Settles O21: the two lanes of the beat of `PAIR` are the two characters of the key, and are read back in order. -/
theorem tensCharacterAtTheLowerAddress : Obligations.TensCharacterAtTheLowerAddress := by
  intro s t haw h
  obtain ⟨-, p, hp, u, hu, rfl⟩ := execPair_eq_next.mp h
  obtain ⟨w, hw, -, rfl⟩ := emitPair_eq_next.mp hu
  obtain ⟨htens, hones⟩ := pairRom_asciiDigits hw
  rw [ipart_toNat, hp] at htens hones
  rw [← htens, ← hones]
  exact memRead_write_two haw s.out s.cur (pairTens w) (pairOnes w)

/-- Settles O24: the frame of the beat that the micro-operation performs. -/
theorem microOpsWriteOnlyAtTheCursor : Obligations.MicroOpsWriteOnlyAtTheCursor := by
  intro i s t hmicro h a ha
  exact (exec_performsBeat hmicro h).read_of_ne ha

/-- Settles O26: the beat presented is the one that `exec_performsBeat` says is performed. -/
theorem beatsArePerformed : Obligations.BeatsArePerformed := by
  intro i s t b hmicro h hb
  exact (exec_performsBeat hmicro h).of_wr_eq_some hb

/-- Settles O51: at `DONE` without a fault `LEN` is the digit count, so the bytes written are all of `dec(V)`. -/
theorem responseMeansTheResultIsComplete : Obligations.ResponseMeansTheResultIsComplete := by
  intro s hinv hprefix hphase hrst hst
  obtain ⟨haw, hcur, -, -, hcall⟩ := inv_iff.mp hinv
  have hlen : s.len.toNat = ndigits s.v.toNat := len_of_done_ok hcall hphase hst
  have hbusy : s.phase ≠ Phase.idle := by rw [hphase]; decide
  have hdecode : decodePhase s.phase = .ok .done := by rw [hphase]; rfl
  have hdone : exec .done s = .next (endCall s) := execDone_eq_next.mpr ⟨hlen ▸ ndigits_le_maxDigits s.v, rfl⟩
  have hstep : step s = .next (s.settle (endCall s)) := by rw [step_of_busy hbusy hrst hdecode, hdone, andThen_next]
  refine ⟨_, hstep, ?_, memRead_dec_of_finished hprefix hphase hst hlen⟩
  rw [settle_rsp, endCall_rsp, hst, ← hlen, wrapAddr_callStart_add_len haw hcur, BitVec.ofNat_toNat, BitVec.setWidth_eq]

/-- Settles O54: the other agents' writes land after the step's own, in order. -/
theorem lastForeignWriteWins : Obligations.LastForeignWriteWins := by
  intro s t rst req cs a b rest hinputs h
  obtain ⟨m, hout⟩ := step_out h
  rw [hout, portIn_ports s _ rest hinputs]
  exact foreignWrites_read_last _ _ _ _ _

end Sys2Proof.Proofs
end

section
/-!
SUPPORT. Noninterference of `OUT` (R31): two runs that begin with different memories agree in everything else.
-/
namespace Sys2Proof.Machine

/-- Two results agree but for `OUT`: both are next states that differ in `OUT` at most, or both are the same stop. -/
inductive AgreeOffOut : Result → Result → Prop
  | next (t : State) (m : Memory) : AgreeOffOut (.next t) (.next { t with out := m })
  | fault (e : Fault) : AgreeOffOut (.fault e) (.fault e)
  | refused (e : Refusal) : AgreeOffOut (.refused e) (.refused e)

/-- What `f` does to everything but `OUT` does not depend on what `OUT` holds. -/
def IgnoresOut (f : State → Result) : Prop := ∀ s m, AgreeOffOut (f s) (f { s with out := m })

/-- In a sequence of two parts, the second goes on from where the first ended, each ignoring `OUT`. -/
theorem AgreeOffOut.andThen {o o' : Result} {f : State → Result} (ho : AgreeOffOut o o') (hf : IgnoresOut f) :
    AgreeOffOut (andThen o f) (andThen o' f) := by
  cases ho with
  | next t m => exact hf t m
  | fault e => exact .fault e
  | refused e => exact .refused e

theorem AgreeOffOut.of_next {t : State} {o : Result} (h : AgreeOffOut (.next t) o) :
    ∃ m, o = .next { t with out := m } := by
  cases h
  exact ⟨_, rfl⟩

theorem AgreeOffOut.of_fault {e : Fault} {o : Result} (h : AgreeOffOut (.fault e) o) : o = .fault e := by
  cases h
  rfl

/-! ### Emissions -/

theorem memWrite_ignoresOut (beat : WriteBeat) : IgnoresOut (memWrite · beat) := by
  intro s m
  unfold memWrite
  split
  · exact .next _ _
  · split
    · exact .next _ _
    · exact .fault _

theorem advanceCursor_ignoresOut (n : Nat) : IgnoresOut (advanceCursor n) := by
  intro s m
  unfold advanceCursor
  split
  · exact .next _ _
  · exact .fault _

theorem emitDigit_ignoresOut (q : Key) : IgnoresOut (emitDigit q) := by
  intro s m
  unfold emitDigit
  split
  · exact (memWrite_ignoresOut _ s m).andThen (advanceCursor_ignoresOut 1)
  · exact .fault _

theorem emitPair_ignoresOut (q : Key) : IgnoresOut (emitPair q) := by
  intro s m
  unfold emitPair
  cases pairRom q with
  | none => exact .fault _
  | some w => exact (memWrite_ignoresOut _ s m).andThen (advanceCursor_ignoresOut 2)

/-! ### Instructions -/

theorem execPredict_ignoresOut : IgnoresOut execPredict := by
  intro s m
  unfold execPredict
  dsimp only
  cases scaleRom (order s.v) with
  | none => exact .fault _
  | some w => exact .next _ _

theorem execScale_ignoresOut : IgnoresOut execScale := by
  intro s m
  unfold execScale
  dsimp only
  split
  · cases mulExact (plusOne s.v).toNat s.pre.toNat with
    | none => exact .fault _
    | some p => exact .next _ _
  · exact .fault _

theorem execLead_ignoresOut : IgnoresOut execLead := by
  intro s m
  unfold execLead
  refine AgreeOffOut.andThen ?_ fun t n => .next _ _
  dsimp only
  split
  · exact emitPair_ignoresOut _ s.beginStep m
  · exact emitDigit_ignoresOut _ s.beginStep m

theorem execPair_ignoresOut : IgnoresOut execPair := by
  intro s m
  unfold execPair
  dsimp only
  split
  · cases mulExact s.frac.toNat 100 with
    | none => exact .fault _
    | some p => exact (emitPair_ignoresOut _ s.beginStep m).andThen fun t n => .next _ _
  · exact .fault _

theorem execLast_ignoresOut : IgnoresOut execLast := by
  intro s m
  unfold execLast
  dsimp only
  split
  · cases mulExact s.frac.toNat 10 with
    | none => exact .fault _
    | some p => exact (emitDigit_ignoresOut _ s.beginStep m).andThen fun t n => .next _ _
  · exact .fault _

theorem execDone_ignoresOut : IgnoresOut execDone := by
  intro s m
  unfold execDone
  split
  · exact .next _ _
  · exact .fault _

/-- A latched request leaves `OUT` to be what it is. -/
theorem acceptRequest_with_out (r : Request) (s : State) (m : Memory) :
    acceptRequest r { s with out := m } = { acceptRequest r s with out := m } := by
  unfold acceptRequest
  split
  · rfl
  · rfl

theorem execAccept_ignoresOut : IgnoresOut execAccept := by
  intro s m
  have hrequest : State.request { s with out := m } = s.request := rfl
  unfold execAccept
  rw [hrequest]
  cases s.request with
  | none => exact .next _ _
  | some r =>
    dsimp only
    rw [acceptRequest_with_out r s m]
    exact .next _ _

theorem repeatPair_ignoresOut (n : Nat) : IgnoresOut (repeatPair n) := by
  induction n with
  | zero => exact fun s m => .next s m
  | succ n ih => exact fun s m => (execPair_ignoresOut s m).andThen ih

theorem finishCall_ignoresOut : IgnoresOut finishCall := by
  intro s m
  refine (execPredict_ignoresOut s m).andThen fun predicted m => ?_
  refine (execScale_ignoresOut predicted m).andThen fun scaled m => ?_
  refine (execLead_ignoresOut scaled m).andThen fun led m => ?_
  refine (repeatPair_ignoresOut _ led m).andThen fun paired m => ?_
  refine AgreeOffOut.andThen ?_ execDone_ignoresOut
  dsimp only
  split
  · exact execLast_ignoresOut paired m
  · exact .next _ _

theorem execEncodeU32_ignoresOut (value : Value) (cursor capacity : Nat) :
    IgnoresOut (execEncodeU32 value cursor capacity) := by
  intro s m
  unfold execEncodeU32
  dsimp only
  rw [acceptRequest_with_out _ s m]
  split
  · split
    · exact execDone_ignoresOut _ m
    · exact finishCall_ignoresOut _ m
  · exact .next _ _

/-- No instruction reads memory (R31). -/
theorem exec_ignoresOut (i : Instr) : IgnoresOut (exec i) := by
  cases i with
  | encodeU32 value cursor capacity => exact execEncodeU32_ignoresOut value cursor capacity
  | accept => exact execAccept_ignoresOut
  | predict => exact execPredict_ignoresOut
  | scale => exact execScale_ignoresOut
  | lead => exact execLead_ignoresOut
  | pair => exact execPair_ignoresOut
  | last => exact execLast_ignoresOut
  | done => exact execDone_ignoresOut

/-- No step reads memory: neither the fetch nor the surroundings look at `OUT` (R31). -/
theorem step_ignoresOut : IgnoresOut step := by
  intro s m
  have hports : State.portIn { s with out := m } = s.portIn := rfl
  have hfetch : State.fetch { s with out := m } = s.fetch := rfl
  unfold step
  rw [hports, hfetch]
  dsimp only
  split
  · exact .next _ _
  · cases decode s.aw s.fetch with
    | error e => exact .fault _
    | ok i => exact (exec_ignoresOut i s m).andThen fun t n => .next _ _

end Sys2Proof.Machine

namespace Sys2Proof.Proofs
open Sys2Proof.Machine

/-- Settles O52: `step_ignoresOut`, for a next state and for a stop. -/
theorem stepIgnoresMemory : Obligations.StepIgnoresMemory := by
  intro s m
  have hagree := step_ignoresOut s m
  constructor
  · intro t h
    rw [h] at hagree
    obtain ⟨m', h'⟩ := hagree.of_next
    exact ⟨_, h', rfl⟩
  · intro e h
    rw [h] at hagree
    exact hagree.of_fault

end Sys2Proof.Proofs
end

section
/-!
SUPPORT. The byte layout of a request record, and fields packed above each other: what is packed is read back (R51 to R54).
-/
namespace Sys2Proof.Machine

/-! ### Bytes, least significant first -/

/-- The number that `n` bytes carry is the low `n` bytes of what was laid out. -/
theorem ofBytesLE_bytesLE (n w : Nat) : ofBytesLE (bytesLE n w) = w % 256 ^ n := by
  induction n generalizing w with
  | zero => rw [pow_zero, Nat.mod_one]; rfl
  | succ n ih => rw [bytesLE, ofBytesLE, ih, BitVec.toNat_ofNat, pow_succ' 256 n, Nat.mod_mul]

/-- Laying out the number that some bytes carry gives the bytes back. -/
theorem bytesLE_ofBytesLE (bytes : List Byte) : bytesLE bytes.length (ofBytesLE bytes) = bytes := by
  induction bytes with
  | nil => rfl
  | cons b rest ih =>
    have hlow : BitVec.ofNat 8 (b.toNat + 256 * ofBytesLE rest) = b := by
      apply BitVec.eq_of_toNat_eq
      rw [BitVec.toNat_ofNat, Nat.add_mul_mod_self_left, Nat.mod_eq_of_lt b.isLt]
    have hhigh : (b.toNat + 256 * ofBytesLE rest) / 256 = ofBytesLE rest := by
      rw [Nat.add_mul_div_left _ _ (by decide), Nat.div_eq_of_lt b.isLt, Nat.zero_add]
    rw [List.length_cons, ofBytesLE, bytesLE, hlow, hhigh, ih]

/-- `n` bytes carry a number below `256^n`. -/
theorem ofBytesLE_lt (bytes : List Byte) : ofBytesLE bytes < 256 ^ bytes.length := by
  have hread := ofBytesLE_bytesLE bytes.length (ofBytesLE bytes)
  rw [bytesLE_ofBytesLE] at hread
  rw [hread]
  exact Nat.mod_lt _ (by positivity)

/-! ### Fields packed above each other -/

/-- The field in the low `k` bits of a packed word. -/
theorem packed_mod {low high k : Nat} (h : low < 2 ^ k) : (low + high * 2 ^ k) % 2 ^ k = low := by
  rw [Nat.add_mul_mod_self_right, Nat.mod_eq_of_lt h]

/-- What stands above the low `k` bits of a packed word. -/
theorem packed_div {low high k : Nat} (h : low < 2 ^ k) : (low + high * 2 ^ k) / 2 ^ k = high := by
  rw [Nat.add_mul_div_right _ _ (Nat.two_pow_pos k), Nat.div_eq_of_lt h, Nat.zero_add]

/-- A field of `j` bits above one of `k` bits is taken off after it. -/
theorem div_two_pow_add (n k j : Nat) : n / 2 ^ (k + j) = n / 2 ^ k / 2 ^ j := by
  rw [pow_add, Nat.div_div_eq_div_mul]

/-- The packed request record: the capacity above the cursor, both above the value (R51). -/
theorem encodeRequest_eq (aw : Nat) (r : Request) :
    encodeRequest aw r = r.value.toNat + (r.cursor + r.capacity * 2 ^ aw) * 2 ^ 32 := by
  unfold encodeRequest
  rw [pow_add]
  ring

/-- The packed response: the status above the length, both above the cursor (R52). -/
theorem Response.pack_eq (aw : Nat) (r : Response) :
    r.pack aw = wrapAddr aw r.cursor + (r.len.toNat + r.status.toNat * 2 ^ 4) * 2 ^ aw := by
  unfold Response.pack
  rw [pow_add]
  ring

/-- The packed beat: the byte enables above the two lanes, all above the address (R53). -/
theorem WriteBeat.pack_eq (aw : Nat) (b : WriteBeat) :
    b.pack aw =
      wrapAddr aw b.addr + (b.lane0.toNat + (b.lane1.toNat + b.be.toNat * 2 ^ 8) * 2 ^ 8) * 2 ^ aw := by
  have hbe : 2 ^ (aw + 16) = 2 ^ 8 * 2 ^ 8 * 2 ^ aw := by ring
  unfold WriteBeat.pack
  rw [hbe, pow_add]
  ring

/-! ### Request records -/

/-- The operands of a record are read back (R51). -/
theorem decodeRequest_encodeRequest {aw : Nat} {r : Request} (hcursor : r.cursor < 2 ^ aw)
    (hcapacity : r.capacity < 2 ^ aw) :
    decodeRequest aw (encodeRequest aw r) = .encodeU32 r.value r.cursor r.capacity := by
  have hvalue : BitVec.ofNat 32 (encodeRequest aw r) = r.value := by
    apply BitVec.eq_of_toNat_eq
    rw [BitVec.toNat_ofNat, encodeRequest_eq, packed_mod r.value.isLt]
  have habove : encodeRequest aw r / 2 ^ 32 = r.cursor + r.capacity * 2 ^ aw := by
    rw [encodeRequest_eq, packed_div r.value.isLt]
  rw [decodeRequest, hvalue, div_two_pow_add, habove, packed_mod hcursor, packed_div hcursor,
    Nat.mod_eq_of_lt hcapacity]

/-- The operands that `decodeRequest` reads from a record. -/
def recordRequest (aw record : Nat) : Request :=
  ⟨BitVec.ofNat 32 record, record / 2 ^ 32 % 2 ^ aw, record / 2 ^ (32 + aw) % 2 ^ aw⟩

theorem decodeRequest_eq (aw record : Nat) :
    decodeRequest aw record =
      .encodeU32 (recordRequest aw record).value (recordRequest aw record).cursor (recordRequest aw record).capacity :=
  rfl

/-- Packing the operands of a record of `reqBits` bits gives the record back: no bit is dropped (R51, R60). -/
theorem encodeRequest_recordRequest {aw record : Nat} (h : record < 2 ^ reqBits aw) :
    encodeRequest aw (recordRequest aw record) = record := by
  have htop : record / 2 ^ 32 / 2 ^ aw < 2 ^ aw := by
    rw [Nat.div_div_eq_div_mul, ← pow_add, Nat.div_lt_iff_lt_mul (by positivity), ← pow_add]
    rwa [reqBits, show 32 + 2 * aw = aw + (32 + aw) by ring] at h
  rw [encodeRequest_eq, recordRequest, BitVec.toNat_ofNat, div_two_pow_add, Nat.mod_eq_of_lt htop,
    Nat.mod_add_div', Nat.mod_add_div']

/-- A record whose operands fit their fields fits its bits (R51). -/
theorem encodeRequest_lt {aw : Nat} {r : Request} (hcursor : r.cursor < 2 ^ aw) (hcapacity : r.capacity < 2 ^ aw) :
    encodeRequest aw r < 2 ^ reqBits aw := by
  have habove : r.cursor + r.capacity * 2 ^ aw < 2 ^ (2 * aw) :=
    calc r.cursor + r.capacity * 2 ^ aw < 2 ^ aw + r.capacity * 2 ^ aw := by omega
      _ = (r.capacity + 1) * 2 ^ aw := by ring
      _ ≤ 2 ^ aw * 2 ^ aw := Nat.mul_le_mul_right _ hcapacity
      _ = 2 ^ (2 * aw) := by ring
  calc encodeRequest aw r = r.value.toNat + (r.cursor + r.capacity * 2 ^ aw) * 2 ^ 32 := encodeRequest_eq aw r
    _ < 2 ^ 32 + (r.cursor + r.capacity * 2 ^ aw) * 2 ^ 32 := Nat.add_lt_add_right r.value.isLt _
    _ = (r.cursor + r.capacity * 2 ^ aw + 1) * 2 ^ 32 := by ring
    _ ≤ 2 ^ (2 * aw) * 2 ^ 32 := Nat.mul_le_mul_right _ habove
    _ = 2 ^ reqBits aw := by rw [reqBits]; ring

/-- The bytes of a record hold all of its bits. -/
theorem two_pow_reqBits_le (aw : Nat) : 2 ^ reqBits aw ≤ 256 ^ reqBytes aw := by
  have hbits : reqBits aw ≤ 8 * reqBytes aw := by unfold reqBytes; omega
  calc 2 ^ reqBits aw ≤ 2 ^ (8 * reqBytes aw) := Nat.pow_le_pow_right (by decide) hbits
    _ = 256 ^ reqBytes aw := by rw [pow_mul]; rfl

/-- Bytes as long as a request record are one, for every `AW`: the 32 bits of the value alone need four (R51). -/
theorem decode_eq_decodeRequest {aw : Nat} {bytes : List Byte} (hlen : bytes.length = reqBytes aw) :
    decode aw bytes = .ok (decodeRequest aw (ofBytesLE bytes)) := by
  have hfour : 4 ≤ reqBytes aw := by unfold reqBytes reqBits; omega
  rw [decode, if_pos hlen]
  rintro b rfl
  rw [List.length_singleton] at hlen
  omega

/-- The bytes of a request record whose operands fit decode to its operation (R51). -/
theorem decode_bytesLE_encodeRequest {aw : Nat} {r : Request} (hcursor : r.cursor < 2 ^ aw)
    (hcapacity : r.capacity < 2 ^ aw) :
    decode aw (bytesLE (reqBytes aw) (encodeRequest aw r)) = .ok (.encodeU32 r.value r.cursor r.capacity) := by
  have hlt : encodeRequest aw r < 256 ^ reqBytes aw := (encodeRequest_lt hcursor hcapacity).trans_le (two_pow_reqBits_le aw)
  rw [decode_eq_decodeRequest (Laws.length_bytesLE _ _), ofBytesLE_bytesLE, Nat.mod_eq_of_lt hlt,
    decodeRequest_encodeRequest hcursor hcapacity]

/-- A well-formed operation is one whose two addresses fit (R51). -/
theorem wellFormed_encodeU32_iff {aw : Nat} {value : Value} {cursor capacity : Nat} :
    (Instr.encodeU32 value cursor capacity).wellFormed aw = true ↔ cursor < 2 ^ aw ∧ capacity < 2 ^ aw := by
  simp [Instr.wellFormed, fitsAddr]

theorem wellFormed_decodeRequest (aw record : Nat) : (decodeRequest aw record).wellFormed aw = true :=
  wellFormed_encodeU32_iff.mpr ⟨Nat.mod_lt _ (Nat.two_pow_pos aw), Nat.mod_lt _ (Nat.two_pow_pos aw)⟩

/-! ### Fetch -/

/-- Unless an operation is asked for in `IDLE`, the phase code is fetched (R54). -/
theorem fetch_eq_phaseByte {s : State} (h : ∀ w rest, s.inputs = .operation w :: rest → s.phase ≠ Phase.idle) :
    s.fetch = [phaseByte s.phase] := by
  unfold State.fetch
  split
  · next w rest hinputs => exact if_neg (h w rest hinputs)
  · rfl

/-- In `IDLE` the record of the operation asked for is fetched (R59). -/
theorem fetch_eq_record {s : State} {w : Nat} {rest : List Stimulus} (hidle : s.phase = Phase.idle)
    (hinputs : s.inputs = .operation w :: rest) : s.fetch = bytesLE (reqBytes s.aw) w := by
  simp [State.fetch, hinputs, hidle]

end Sys2Proof.Machine

namespace Sys2Proof.Proofs
open Sys2Proof.Machine

/-- Settles O1: a request record by `decode_bytesLE_encodeRequest`, every other row by its phase code. -/
theorem decodeEncodeAgree : Obligations.DecodeEncodeAgree := by
  intro aw i _ hwf
  cases i with
  | encodeU32 value cursor capacity =>
    obtain ⟨hcursor, hcapacity⟩ := wellFormed_encodeU32_iff.mp hwf
    exact decode_bytesLE_encodeRequest (r := ⟨value, cursor, capacity⟩) hcursor hcapacity
  | accept => exact decode_phaseByte aw Phase.idle
  | predict => exact decode_phaseByte aw Phase.predict
  | scale => exact decode_phaseByte aw Phase.scale
  | lead => exact decode_phaseByte aw Phase.lead
  | pair => exact decode_phaseByte aw Phase.pair
  | last => exact decode_phaseByte aw Phase.last
  | done => exact decode_phaseByte aw Phase.done

/-- Settles O2: where the record fills its bytes, they carry no more than its bits, and all of those are operands. -/
theorem everyRequestRecordRoundTrips : Obligations.EveryRequestRecordRoundTrips := by
  intro aw bytes _ hfull hlen
  have hbits : 8 * reqBytes aw = reqBits aw := by unfold reqBytes; omega
  have hrecord : ofBytesLE bytes < 2 ^ reqBits aw :=
    calc ofBytesLE bytes < 256 ^ reqBytes aw := hlen ▸ ofBytesLE_lt bytes
      _ = 2 ^ reqBits aw := by rw [← hbits, pow_mul]; rfl
  refine ⟨_, decode_eq_decodeRequest hlen, wellFormed_decodeRequest _ _, ?_⟩
  rw [decodeRequest_eq, encode, encodeRequest_recordRequest hrecord, ← hlen, bytesLE_ofBytesLE]

/-- Settles O4: each field is taken off the packed word after those below it. -/
theorem packedRecordsHoldTheirFields : Obligations.PackedRecordsHoldTheirFields := by
  constructor
  · intro aw r hfits
    have hcursor : r.cursor < 2 ^ aw := of_decide_eq_true hfits
    rw [Response.pack_eq, wrapAddr_of_lt hcursor, div_two_pow_add, packed_mod hcursor, packed_div hcursor,
      packed_mod r.len.isLt, packed_div r.len.isLt]
    exact ⟨rfl, rfl, rfl⟩
  · intro aw b hfits
    have haddr : b.addr < 2 ^ aw := of_decide_eq_true hfits
    rw [WriteBeat.pack_eq, wrapAddr_of_lt haddr, div_two_pow_add _ aw 8, div_two_pow_add _ aw (8 + 8),
      div_two_pow_add _ 8 8, packed_mod haddr, packed_div haddr, packed_mod b.lane0.isLt, packed_div b.lane0.isLt,
      packed_mod b.lane1.isLt, packed_div b.lane1.isLt]
    exact ⟨rfl, rfl, rfl, rfl⟩

/-- Settles O42: the phase code fetched decodes as itself, the record fetched as the operation it packs. -/
theorem fetchSelectsTheInstruction : Obligations.FetchSelectsTheInstruction := by
  intro s
  constructor
  · intro hphase
    rw [fetch_eq_phaseByte hphase, decode_phaseByte]
  · intro r rest hidle hwf hinputs
    obtain ⟨hcursor, hcapacity⟩ := wellFormed_encodeU32_iff.mp hwf
    rw [fetch_eq_record hidle hinputs, decode_bytesLE_encodeRequest hcursor hcapacity]

/-- Settles O3: the record evaluated, and each phase code by `decode_phaseByte`. -/
theorem specWordsDecode : Obligations.SpecWordsDecode :=
  ⟨rfl, decode_phaseByte 32 Phase.idle, decode_phaseByte 32 Phase.predict, decode_phaseByte 32 Phase.scale,
    decode_phaseByte 32 Phase.lead, decode_phaseByte 32 Phase.pair, decode_phaseByte 32 Phase.last,
    decode_phaseByte 32 Phase.done, decode_phaseByte 32 0b111#3⟩

/-- Settles O43: the reserved phase code is what the step fetches, and it decodes to nothing. -/
theorem reservedPhaseStops : Obligations.ReservedPhaseStops := by
  intro s hphase hrst
  have hbusy : s.phase ≠ Phase.idle := by rw [hphase]; decide
  have hreserved : decode s.aw s.fetch = .error .reservedPhase := by
    rw [fetch_eq_phaseByte fun _ _ _ => hbusy, decode_phaseByte, hphase]
    rfl
  simp [step, hrst, hreserved]

end Sys2Proof.Proofs
end

section
/-!
SUPPORT. Progress: from a state that meets the invariant every instruction, and so every step, answers a next state (R144,
R161).
-/
namespace Sys2Proof.Machine

/-! ### Emissions -/

theorem exists_emitDigit {q : Key} {s : State} (hq : q.toNat ≤ 9) (hlen : s.len.toNat + 1 ≤ 10) :
    ∃ t, emitDigit q s = .next t :=
  ⟨_, emitDigit_eq_next.mpr ⟨hq, hlen, rfl⟩⟩

theorem exists_emitPair {q : Key} {s : State} (hq : q.toNat < 100) (hlen : s.len.toNat + 2 ≤ 10) :
    ∃ t, emitPair q s = .next t := by
  obtain ⟨w, hw⟩ := Option.isSome_iff_exists.mp ((pairRom_isSome_iff q).mpr hq)
  exact ⟨_, emitPair_eq_next.mpr ⟨w, hw, hlen, rfl⟩⟩

/-- A number below `100 * UNIT` has an accumulator value, which is how every product of a call fits (R84). -/
theorem exists_acc {n : Nat} (h : n < 100 * Config.unit) : ∃ p : Acc, p.toNat = n := by
  have hunit : 100 * Config.unit < 2 ^ 64 := by decide
  exact ⟨BitVec.ofNat 64 n, by rw [BitVec.toNat_ofNat, Nat.mod_eq_of_lt (h.trans hunit)]⟩

/-- The integer part of an accumulator below `n * UNIT` is below `n` (R94). -/
theorem ipart_lt {p : Acc} {n : Nat} (h : p.toNat < n * Config.unit) : (ipart p).toNat < n := by
  rw [ipart_toNat]
  exact Nat.div_lt_of_lt_mul (by rwa [Nat.mul_comm])

/-! ### Micro-operations -/

theorem exists_execAccept (s : State) : ∃ t, execAccept s = .next t := by
  cases hrequest : s.request with
  | none => exact ⟨_, execAccept_eq_next.mpr (.inr ⟨hrequest, rfl⟩)⟩
  | some r => exact ⟨_, execAccept_eq_next.mpr (.inl ⟨r, hrequest, rfl⟩)⟩

/-- Every Value has an Order of at most 32, so `PREDICT` never stops (R71). -/
theorem exists_execPredict (s : State) : ∃ t, execPredict s = .next t := by
  have hpos : 0 < (s.v.toNat + 1).size := Nat.size_pos.mpr (by omega)
  have horder : (order s.v).toNat < 33 := by rw [order_toNat]; omega
  obtain ⟨w, hw⟩ := Option.isSome_iff_exists.mp ((scaleRom_isSome_iff _).mpr horder)
  exact ⟨_, execPredict_eq_next.mpr ⟨w, hw, rfl⟩⟩

/-- With the Scale Entry of its Value the product of `SCALE` fits, because the corrected sum does (R84). -/
theorem exists_execScale {s : State} (hpredicted : predictedOk s) : ∃ t, execScale s = .next t := by
  have hfacts := hpredicted.2.facts
  have hproduct : (s.v.toNat + 1) * s.pre.toNat < 100 * Config.unit :=
    (Nat.le_add_right _ _).trans_lt (hfacts.lt_of_scaledOk hfacts.scaledOk_scaledSum)
  obtain ⟨p, hp⟩ := exists_acc hproduct
  exact ⟨_, execScale_eq_next.mpr ⟨hfacts.nd_pos, hfacts.nd_le, p, hp, rfl⟩⟩

/-- The lead step emits a number below 100, or below 10, as the first digits of a call (R84, R91). -/
theorem exists_execLead {s : State} (hleading : leadingOk s) : ∃ t, execLead s = .next t := by
  obtain ⟨⟨-, hlen, -⟩, hpredicted, hrem, hscaled⟩ := hleading
  rw [hrem, rem0_toNat] at hscaled
  have hfrac : s.frac.toNat < 100 * Config.unit := hpredicted.2.facts.lt_of_scaledOk hscaled
  have hemits : ∃ u, (if atLeastTens s.frac then emitPair (ipart s.frac) s.beginStep
      else emitDigit (ipart s.frac) s.beginStep) = .next u := by
    split
    · exact exists_emitPair (ipart_lt hfrac) (by simp [hlen])
    · next htens =>
      have hsmall : s.frac.toNat < 10 * Config.unit := Nat.lt_of_not_le (mt (atLeastTens_iff _).mpr htens)
      exact exists_emitDigit (Nat.le_of_lt_succ (ipart_lt hsmall)) (by simp [hlen])
  obtain ⟨u, hu⟩ := hemits
  exact ⟨_, execLead_eq_next.mpr ⟨u, hu, rfl⟩⟩

/-- The digits written and outstanding are those of the Value together, so the ones outstanding still fit (R96). -/
theorem extractingOk.len_add_rem_le {s : State} (h : extractingOk s) : s.len.toNat + s.rem.toNat ≤ 10 := by
  obtain ⟨-, -, -, -, -, hdigits, -⟩ := h
  exact hdigits ▸ ndigits_le_maxDigits s.v

theorem exists_execPair {s : State} (hextracting : extractingOk s) (htwo : 2 ≤ s.rem.toNat) :
    ∃ t, execPair s = .next t := by
  have hcount := hextracting.len_add_rem_le
  obtain ⟨-, -, -, hfrac, -⟩ := hextracting
  obtain ⟨p, hp⟩ := exists_acc (n := s.frac.toNat * 100) (by omega)
  obtain ⟨u, hu⟩ := exists_emitPair (q := ipart p) (s := s.beginStep) (ipart_lt (by omega)) (by simp; omega)
  exact ⟨_, execPair_eq_next.mpr ⟨htwo, p, hp, u, hu, rfl⟩⟩

theorem exists_execLast {s : State} (hextracting : extractingOk s) (hone : s.rem.toNat = 1) :
    ∃ t, execLast s = .next t := by
  have hcount := hextracting.len_add_rem_le
  obtain ⟨-, -, -, hfrac, -⟩ := hextracting
  obtain ⟨p, hp⟩ := exists_acc (n := s.frac.toNat * 10) (by omega)
  have hdigit : (ipart p).toNat < 10 := ipart_lt (by omega)
  obtain ⟨u, hu⟩ := exists_emitDigit (q := ipart p) (s := s.beginStep) (by omega) (by simp; omega)
  exact ⟨_, execLast_eq_next.mpr ⟨hone, p, hp, u, hu, rfl⟩⟩

theorem exists_execDone {s : State} (hfinished : finishedOk s) : ∃ t, execDone s = .next t := by
  have hlen : s.len.toNat ≤ 10 := by
    obtain ⟨-, hzero, -⟩ | ⟨-, -, hdigits⟩ := hfinished
    · simp [hzero]
    · exact hdigits ▸ ndigits_le_maxDigits s.v
  exact ⟨_, execDone_eq_next.mpr ⟨hlen, rfl⟩⟩

/-- The phase of a state that meets the invariant selects a micro-operation, and that one answers (R60, R144). -/
theorem callOk.exists_exec {s : State} (hcall : callOk s) :
    ∃ i t, decodePhase s.phase = .ok i ∧ exec i s = .next t := by
  obtain hp | ⟨hp, -⟩ | ⟨hp, -, hpredicted⟩ | ⟨hp, hleading⟩ | ⟨hp, hextracting, htwo⟩ | ⟨hp, hextracting, hone⟩ |
    ⟨hp, hfinished⟩ := callOk_iff.mp hcall <;> rw [hp]
  · exact ⟨.accept, (exists_execAccept s).imp fun _ h => ⟨rfl, h⟩⟩
  · exact ⟨.predict, (exists_execPredict s).imp fun _ h => ⟨rfl, h⟩⟩
  · exact ⟨.scale, (exists_execScale hpredicted).imp fun _ h => ⟨rfl, h⟩⟩
  · exact ⟨.lead, (exists_execLead hleading).imp fun _ h => ⟨rfl, h⟩⟩
  · exact ⟨.pair, (exists_execPair hextracting htwo).imp fun _ h => ⟨rfl, h⟩⟩
  · exact ⟨.last, (exists_execLast hextracting hone).imp fun _ h => ⟨rfl, h⟩⟩
  · exact ⟨.done, (exists_execDone hfinished).imp fun _ h => ⟨rfl, h⟩⟩

/-! ### The whole operation -/

/-- Between two steps of the extraction: the invariant of the call, in the phase that `REM` chooses (R95). -/
def betweenDigits (s : State) : Prop := callOk s ∧ s.phase = afterPhase s.rem

/-- What the invariant of the call says between two steps of the extraction, by `REM`. -/
theorem betweenDigits.cases {s : State} (h : betweenDigits s) :
    (2 ≤ s.rem.toNat ∧ extractingOk s) ∨ (s.rem.toNat = 1 ∧ extractingOk s) ∨ (s.rem.toNat = 0 ∧ finishedOk s) := by
  obtain ⟨⟨-, -, -, -, hpair, hlast, hdone⟩, hphase⟩ := h
  obtain ⟨hrem, hafter⟩ | ⟨hrem, hafter⟩ | ⟨hrem, hafter⟩ := afterPhase_cases s.rem
  · exact .inl ⟨hrem, (hpair (hphase.trans hafter)).1⟩
  · exact .inr (.inl ⟨hrem, (hlast (hphase.trans hafter)).1⟩)
  · exact .inr (.inr ⟨hrem, hdone (hphase.trans hafter)⟩)

/-- With two digits or more outstanding `PAIR` answers, and takes two of them off (R92). -/
theorem betweenDigits.exists_execPair {s : State} (h : betweenDigits s) (htwo : 2 ≤ s.rem.toNat) :
    ∃ t, execPair s = .next t ∧ betweenDigits t ∧ t.rem.toNat + 2 = s.rem.toNat := by
  have hextracting : extractingOk s := by
    obtain ⟨-, hx⟩ | ⟨hone, -⟩ | ⟨hzero, -⟩ := h.cases
    · exact hx
    · omega
    · omega
  obtain ⟨t, ht⟩ := Machine.exists_execPair hextracting htwo
  have hcall := execPair_callOk hextracting ht
  obtain ⟨-, p, -, u, -, rfl⟩ := execPair_eq_next.mp ht
  have hrem : (s.rem - 2#4).toNat + 2 = s.rem.toNat := by
    rw [BitVec.toNat_sub_of_le htwo]
    exact Nat.sub_add_cancel htwo
  exact ⟨_, ht, ⟨hcall, rfl⟩, hrem⟩

/-- The two-digit loop answers, and takes two digits off in each round (R92, R119). -/
theorem betweenDigits.exists_repeatPair {n : Nat} {s : State} (h : betweenDigits s) (hn : 2 * n ≤ s.rem.toNat) :
    ∃ t, repeatPair n s = .next t ∧ betweenDigits t ∧ t.rem.toNat + 2 * n = s.rem.toNat := by
  induction n generalizing s with
  | zero => exact ⟨s, rfl, h, rfl⟩
  | succ n ih =>
    obtain ⟨u, hu, hbetween, hrem⟩ := h.exists_execPair (by omega)
    obtain ⟨t, ht, hend, hcount⟩ := ih hbetween (by omega)
    exact ⟨t, repeatPair_succ_eq_next.mpr ⟨u, hu, ht⟩, hend, by omega⟩

/-- With at most one digit outstanding the call comes to its end, through `LAST` where one is (R93, R119). -/
theorem betweenDigits.exists_last {s : State} (h : betweenDigits s) (hle : s.rem.toNat ≤ 1) :
    ∃ t, (if s.rem.toNat = 1 then execLast s else .next s) = .next t ∧ finishedOk t := by
  obtain ⟨htwo, -⟩ | ⟨hone, hextracting⟩ | ⟨hzero, hfinished⟩ := h.cases
  · omega
  · obtain ⟨t, ht⟩ := exists_execLast hextracting hone
    obtain ⟨-, -, -, -, -, -, hdone⟩ := execLast_callOk hextracting ht
    rw [if_pos hone]
    refine ⟨t, ht, hdone ?_⟩
    obtain ⟨-, p, -, u, -, rfl⟩ := execLast_eq_next.mp ht
    rfl
  · exact ⟨s, if_neg (by omega), hfinished⟩

/-- After the lead step the call is between two digits (R91, R95). -/
theorem exists_execLead_betweenDigits {s : State} (hleading : leadingOk s) :
    ∃ t, execLead s = .next t ∧ betweenDigits t := by
  obtain ⟨t, ht⟩ := exists_execLead hleading
  have hcall := execLead_callOk hleading ht
  obtain ⟨u, -, rfl⟩ := execLead_emits ht
  exact ⟨_, ht, hcall, rfl⟩

/-- An accepted call is carried out to its `DONE` (R119). -/
theorem exists_finishCall {s : State} (haccepted : acceptedOk s) : ∃ t, finishCall s = .next t := by
  obtain ⟨predicted, hpredict⟩ := exists_execPredict s
  obtain ⟨-, -, hscale, -⟩ := execPredict_callOk haccepted hpredict
  have hpredicted : acceptedOk predicted ∧ predictedOk predicted := by
    obtain ⟨w, -, rfl⟩ := execPredict_eq_next.mp hpredict
    exact hscale rfl
  obtain ⟨scaled, hscale⟩ := exists_execScale hpredicted.2
  obtain ⟨-, -, -, hlead, -⟩ := execScale_callOk hpredicted.1 hpredicted.2 hscale
  have hleading : leadingOk scaled := by
    obtain ⟨-, -, p, -, rfl⟩ := execScale_eq_next.mp hscale
    exact hlead rfl
  obtain ⟨led, hled, hbetween⟩ := exists_execLead_betweenDigits hleading
  obtain ⟨paired, hpaired, hrest, hrem⟩ := hbetween.exists_repeatPair (n := led.rem.toNat / 2) (by omega)
  obtain ⟨ended, hended, hfinished⟩ := hrest.exists_last (by omega)
  obtain ⟨t, ht⟩ := exists_execDone hfinished
  exact ⟨t, finishCall_eq_next.mpr ⟨predicted, scaled, led, paired, ended, hpredict, hscale, hled, hpaired, hended, ht⟩⟩

/-- The whole operation answers from every state: it waits, fails for its capacity, or is carried out (R121, R134, R154). -/
theorem exists_execEncodeU32 (value : Value) (cursor capacity : Nat) (s : State) :
    ∃ t, execEncodeU32 value cursor capacity s = .next t := by
  by_cases hidle : s.phase = Phase.idle
  · by_cases hcap : wrapAddr s.aw capacity < 10
    · exact ⟨_, execEncodeU32_eq_next.mpr (.inl ⟨hidle, hcap, rfl⟩)⟩
    · have hlarge := Nat.le_of_not_lt hcap
      have haccepted : acceptedOk (acceptRequest (Request.onWires s.aw ⟨value, cursor, capacity⟩) s) := by
        simp [acceptedOk, Request.onWires, hlarge]
      obtain ⟨t, ht⟩ := exists_finishCall haccepted
      exact ⟨t, execEncodeU32_eq_next.mpr (.inr (.inl ⟨hidle, hlarge, ht⟩))⟩
  · exact ⟨_, execEncodeU32_eq_next.mpr (.inr (.inr ⟨hidle, rfl⟩))⟩

/-! ### Steps and runs -/

/-- What is fetched in a state that meets the invariant decodes to an instruction that answers. -/
theorem callOk.exists_fetched {s : State} (hcall : callOk s) :
    ∃ i t, decode s.aw s.fetch = .ok i ∧ exec i s = .next t := by
  rcases fetch_cases s with hfetch | ⟨-, hlen⟩
  · rw [hfetch, decode_phaseByte]
    exact hcall.exists_exec
  · rw [decode_eq_decodeRequest hlen, decodeRequest_eq]
    exact ⟨_, (exists_execEncodeU32 _ _ _ s).imp fun _ h => ⟨rfl, h⟩⟩

/-- The invariant of the call is all that a step needs to answer (R144, R161). -/
theorem callOk.exists_step {s : State} (hcall : callOk s) : ∃ t, step s = .next t := by
  cases hrst : s.portIn.rst with
  | true => exact ⟨_, step_eq_next.mpr (.inl ⟨hrst, rfl⟩)⟩
  | false =>
    obtain ⟨i, u, hdecode, hexec⟩ := hcall.exists_fetched
    exact ⟨_, step_eq_next.mpr (.inr ⟨hrst, i, u, hdecode, hexec, rfl⟩)⟩

theorem run_succ_of_step {s u : State} (h : step s = .next u) (k : Nat) :
    Host.Core.run core (k + 1) s = Host.Core.run core k u := by
  have hstep : core.step s = .next u := h
  simp only [Host.Core.run, hstep]

/-- A property that every step keeps, and that lets every step answer, makes every run answer and holds after it. -/
theorem exists_run {P : State → Prop} (hanswers : ∀ s, P s → ∃ t, step s = .next t)
    (hkeeps : ∀ s t, P s → step s = .next t → P t) {s : State} (hs : P s) (k : Nat) :
    ∃ t, Host.Core.run core k s = .next t ∧ P t := by
  induction k generalizing s with
  | zero => exact ⟨s, rfl, hs⟩
  | succ k ih =>
    obtain ⟨u, hu⟩ := hanswers s hs
    rw [run_succ_of_step hu]
    exact ih (hkeeps s u hs hu)

end Sys2Proof.Machine

namespace Sys2Proof.Proofs
open Sys2Proof.Machine

/-- Settles O48: the part of the invariant about the call lets the step answer, `callOk.exists_step`. -/
theorem invariantStatesNeverStop : Obligations.InvariantStatesNeverStop := by
  intro s hinv
  obtain ⟨-, -, -, -, hcall⟩ := inv_iff.mp hinv
  exact hcall.exists_step

/-- Settles O49: the invariant holds at reset (O46), every step keeps it (O47), and with it every step answers (O48). -/
theorem machineNeverStopsAfterReset : Obligations.MachineNeverStopsAfterReset := by
  intro aw inputs haw k
  have hreset := resetSatisfiesTheInvariant aw inputs haw
  exact (exists_run invariantStatesNeverStop stepKeepsTheInvariant hreset k).imp fun _ h => h.1

end Sys2Proof.Proofs
end

section
/-!
SUPPORT. From the micro-operations to the operation composed of them (R119), and the bytes that are written (R57).
-/
namespace Sys2Proof.Machine

/-! ### From the micro-operations to the operation -/

/-- `R` relates the state before to the state after, across every micro-operation and every latched request, and across
their sequences. -/
structure RelatesMicroOps (R : State → State → Prop) : Prop where
  refl : ∀ s, R s s
  trans : ∀ {s t u}, R s t → R t u → R s u
  beginStep : ∀ s, R s s.beginStep
  latch : ∀ r s, R s (acceptRequest r s)
  micro : ∀ {i s t}, isMicroOp i → exec i s = .next t → R s t

theorem RelatesMicroOps.repeatPair {R : State → State → Prop} (hR : RelatesMicroOps R) {n : Nat} {s t : State}
    (h : repeatPair n s = .next t) : R s t := by
  induction n generalizing s with
  | zero =>
    cases h
    exact hR.refl _
  | succ n ih =>
    obtain ⟨u, hu, ht⟩ := repeatPair_succ_eq_next.mp h
    exact hR.trans (hR.micro (i := .pair) nofun hu) (ih ht)

theorem RelatesMicroOps.finishCall {R : State → State → Prop} (hR : RelatesMicroOps R) {s t : State}
    (h : finishCall s = .next t) : R s t := by
  obtain ⟨predicted, scaled, led, paired, ended, hpredict, hscale, hlead, hpair, hlast, hdone⟩ :=
    finishCall_eq_next.mp h
  have hended : R paired ended := by
    split at hlast
    · exact hR.micro (i := .last) nofun hlast
    · cases hlast
      exact hR.refl paired
  exact hR.trans (hR.micro (i := .predict) nofun hpredict) <| hR.trans (hR.micro (i := .scale) nofun hscale) <|
    hR.trans (hR.micro (i := .lead) nofun hlead) <| hR.trans (hR.repeatPair hpair) <|
    hR.trans hended (hR.micro (i := .done) nofun hdone)

theorem RelatesMicroOps.execEncodeU32 {R : State → State → Prop} (hR : RelatesMicroOps R) {value : Value}
    {cursor capacity : Nat} {s t : State} (h : execEncodeU32 value cursor capacity s = .next t) : R s t := by
  obtain ⟨-, -, rfl⟩ | ⟨-, -, hfinish⟩ | ⟨-, rfl⟩ := execEncodeU32_eq_next.mp h
  · refine hR.trans (hR.latch _ s) (hR.micro (i := .done) nofun (execDone_eq_next.mpr ⟨?_, rfl⟩))
    simp
  · exact hR.trans (hR.latch _ s) (hR.finishCall hfinish)
  · exact hR.beginStep s

/-- What relates the states across the micro-operations relates them across every instruction (R119). -/
theorem RelatesMicroOps.exec {R : State → State → Prop} (hR : RelatesMicroOps R) {i : Instr} {s t : State}
    (h : exec i s = .next t) : R s t := by
  cases i with
  | encodeU32 value cursor capacity => exact hR.execEncodeU32 h
  | accept => exact hR.micro (i := .accept) nofun h
  | predict => exact hR.micro (i := .predict) nofun h
  | scale => exact hR.micro (i := .scale) nofun h
  | lead => exact hR.micro (i := .lead) nofun h
  | pair => exact hR.micro (i := .pair) nofun h
  | last => exact hR.micro (i := .last) nofun h
  | done => exact hR.micro (i := .done) nofun h

/-! ### Digit characters -/

/-- A byte is the character of a decimal digit (R57). -/
def IsDigitChar (b : Byte) : Prop := ∃ d ≤ 9, b = asciiDigit d

/-- Where the second memory differs from the first, it holds a digit character. -/
def ChangedToDigits (m n : Memory) : Prop := ∀ a, n.read a ≠ m.read a → ∃ d ≤ 9, n.read a = some (asciiDigit d)

theorem ChangedToDigits.of_eq {m n : Memory} (h : n = m) : ChangedToDigits m n :=
  fun _ hne => absurd (congrArg (Memory.read · _) h) hne

theorem ChangedToDigits.trans {m n o : Memory} (hmn : ChangedToDigits m n) (hno : ChangedToDigits n o) :
    ChangedToDigits m o := by
  intro a hne
  by_cases hlater : o.read a = n.read a
  · rw [hlater] at hne ⊢
    exact hmn a hne
  · exact hno a hlater

/-- Writing a digit character changes no byte to anything else. -/
theorem IsDigitChar.changedToDigits_write {b : Byte} (hb : IsDigitChar b) (m : Memory) (a : Nat) :
    ChangedToDigits m (m.write a b) := by
  intro x hne
  by_cases hx : x = a
  · obtain ⟨d, hd, rfl⟩ := hb
    exact ⟨d, hd, by rw [hx, Memory.read_write_same]⟩
  · exact absurd (Memory.read_write_of_ne m b hx) hne

theorem isDigitChar_digitChar {q : Key} (hq : q.toNat ≤ 9) : IsDigitChar (digitChar q) :=
  ⟨q.toNat, hq, digitChar_eq q⟩

/-- Both characters of a word of `PAIR_ROM` are digits (R111). -/
theorem isDigitChar_of_pairRom {q : Key} {w : BitVec 16} (h : pairRom q = some w) :
    IsDigitChar (pairTens w) ∧ IsDigitChar (pairOnes w) := by
  obtain ⟨htens, hones⟩ := pairRom_asciiDigits h
  have hq : q.toNat < 100 := (pairRom_isSome_iff q).mp (by rw [h, Option.isSome_some])
  exact ⟨⟨q.toNat / 10, by omega, htens⟩, ⟨q.toNat % 10, by omega, hones⟩⟩

theorem emitDigit_changedToDigits {q : Key} {s t : State} (h : emitDigit q s = .next t) : ChangedToDigits s.out t.out := by
  obtain ⟨hq, -, rfl⟩ := emitDigit_eq_next.mp h
  exact (isDigitChar_digitChar hq).changedToDigits_write _ _

theorem emitPair_changedToDigits {q : Key} {s t : State} (h : emitPair q s = .next t) : ChangedToDigits s.out t.out := by
  obtain ⟨w, hw, -, rfl⟩ := emitPair_eq_next.mp h
  obtain ⟨htens, hones⟩ := isDigitChar_of_pairRom hw
  exact (htens.changedToDigits_write _ _).trans (hones.changedToDigits_write _ _)

theorem execLead_changedToDigits {s t : State} (h : execLead s = .next t) : ChangedToDigits s.out t.out := by
  obtain ⟨u, hu, rfl⟩ := execLead_eq_next.mp h
  split at hu
  · exact (emitPair_changedToDigits hu :)
  · exact (emitDigit_changedToDigits hu :)

/-- Every micro-operation changes bytes to digit characters only: the Extractor's three by what they emit, the others
because they emit nothing (R33, R57). -/
theorem exec_changedToDigits_of_isMicroOp {i : Instr} {s t : State} (hmicro : isMicroOp i) (h : exec i s = .next t) :
    ChangedToDigits s.out t.out := by
  have hsilent (hnone : bytesEmitted i s = 0) : ChangedToDigits s.out t.out := fun _ hne =>
    absurd ((exec_performsBeat hmicro h).read_of_ne (by simp [hnone])) hne
  cases i with
  | encodeU32 value cursor capacity => exact absurd rfl (hmicro value cursor capacity)
  | accept => exact hsilent rfl
  | predict => exact hsilent rfl
  | scale => exact hsilent rfl
  | lead => exact execLead_changedToDigits h
  | pair =>
    obtain ⟨-, p, -, u, hu, rfl⟩ := execPair_eq_next.mp h
    exact (emitPair_changedToDigits hu :)
  | last =>
    obtain ⟨-, p, -, u, hu, rfl⟩ := execLast_eq_next.mp h
    exact (emitDigit_changedToDigits hu :)
  | done => exact hsilent rfl

theorem changedToDigits_relatesMicroOps : RelatesMicroOps fun s t => ChangedToDigits s.out t.out where
  refl _ := .of_eq rfl
  trans := ChangedToDigits.trans
  beginStep _ := .of_eq rfl
  latch r s := .of_eq (acceptRequest_out r s)
  micro := exec_changedToDigits_of_isMicroOp

end Sys2Proof.Machine

namespace Sys2Proof.Proofs
open Sys2Proof.Machine

/-- Settles O27: what holds of the bytes that a micro-operation changes holds of those that the operation changes. -/
theorem onlyDigitCharactersAreWritten : Obligations.OnlyDigitCharactersAreWritten := by
  intro i s t a h hne
  exact changedToDigits_relatesMicroOps.exec h a hne

end Sys2Proof.Proofs
end

section
/-!
SUPPORT. The Digit-Count Predictor: the bucket of an Order, the formulas of `SCALE_ROM`, and what the fields of a Scale
Entry say of the digits of a Value (R73 to R79).
-/
namespace Sys2Proof.Machine

/-! ### Buckets -/

/-- A Value lies in a bucket when the binary size of `v + 1` is 33 less the Order (R77). -/
theorem inBucket_iff_size {k v : Nat} (hk : k ≤ 32) : inBucket k v ↔ (v + 1).size = 33 - k := by
  rw [inBucket, ← Nat.lt_size, ← Nat.size_le]
  omega

/-- The Order of a Value is the one whose bucket holds it (R76). -/
theorem order_toNat_eq_iff {v : Value} {k : Nat} (hk : k ≤ 32) : (order v).toNat = k ↔ inBucket k v.toNat := by
  have hle : (v.toNat + 1).size ≤ 33 := Nat.size_le.mpr (by omega)
  rw [order_toNat, inBucket_iff_size hk]
  omega

/-- Every Order is an address of `SCALE_ROM` (R55, R71). -/
theorem order_toNat_le (v : Value) : (order v).toNat ≤ 32 := by
  have hpos : 0 < (v.toNat + 1).size := Nat.size_pos.mpr (by omega)
  rw [order_toNat]
  omega

/-- The bucket of Order 0 holds the largest Value alone (R76). -/
theorem inBucket_zero_iff (v : Value) : inBucket 0 v.toNat ↔ v.toNat = 2 ^ 32 - 1 := by
  have hlt := v.isLt
  simp only [inBucket, Nat.sub_zero]
  omega

/-- The bucket of an Order by the smallest and the largest of its Values (R76). -/
theorem inBucket_iff_bounds {k v : Nat} (hk : k ≤ 32) :
    inBucket k v ↔ 2 ^ (32 - k) - 1 ≤ v ∧ v ≤ 2 ^ (33 - k) - 2 := by
  have hpow : 2 ^ (33 - k) = 2 * 2 ^ (32 - k) := by
    rw [show 33 - k = 32 - k + 1 by omega, pow_succ']
  have hpos : 0 < 2 ^ (32 - k) := by positivity
  rw [inBucket, hpow]
  omega

/-! ### The formulas of the Scale Entries -/

/-- The digit count of a number from the two powers of ten around it; a number of one digit has no lower one (R8). -/
theorem ndigits_eq_of_bounds {v n : Nat} (hn : 1 ≤ n) (hlow : n = 1 ∨ 10 ^ (n - 1) ≤ v) (hhigh : v < 10 ^ n) :
    ndigits v = n := by
  obtain ⟨d, rfl⟩ := Nat.exists_eq_add_of_le' hn
  rcases hlow with hone | hlow
  · rw [hone] at hhigh ⊢
    exact ndigits_of_lt_ten (by omega)
  · exact ndigits_of_bounds hlow hhigh

/-- The formulas of R73 and R74 for a row, the digit count by powers of ten. -/
def rowFormulas (k nd pre : Nat) : Bool :=
  decide (1 ≤ nd ∧ (nd = 1 ∨ 10 ^ (nd - 1) ≤ largestOfBucket k) ∧ largestOfBucket k < 10 ^ nd ∧
    pre = (2 * Config.unit - 10 ^ (nd - 2)) / (2 * 10 ^ (nd - 2)))

/-- The 33 rows of `SCALE_ROM` against their formulas, evaluated. -/
theorem scaleRom_rowFormulas :
    ∀ k : BitVec 6,
      (scaleRom k).all (fun w => rowFormulas k.toNat (scaleNd w).toNat (scalePre w).toNat) = true := by
  decide

/-- The fields of a Scale Entry are the digit count of R73 and the prescale of R74. -/
theorem scaleRom_fields {k : BitVec 6} {w : BitVec 61} (h : scaleRom k = some w) :
    (scaleNd w).toNat = bucketNd k.toNat ∧ (scalePre w).toNat = bucketPre k.toNat := by
  have hrow := scaleRom_rowFormulas k
  rw [h] at hrow
  obtain ⟨hpos, hlow, hhigh, hpre⟩ := of_decide_eq_true hrow
  have hnd : bucketNd k.toNat = (scaleNd w).toNat := ndigits_eq_of_bounds hpos hlow hhigh
  exact ⟨hnd.symm, by rw [hpre, bucketPre, bucketExp, hnd]⟩

theorem exists_scaleRom {k : BitVec 6} (hk : k.toNat ≤ 32) : ∃ w, scaleRom k = some w :=
  Option.isSome_iff_exists.mp ((scaleRom_isSome_iff k).mpr (by omega))

/-! ### The digits of a Value from its Scale Entry -/

/-- The Orders whose buckets hold Values of two digit counts (R73). -/
def spanningOrders : List Nat := [3, 6, 9, 13, 16, 19, 23, 26, 29]

/-- What `ND` says of a Value `v` of the bucket of Order `k`, beyond `EntryFacts` (R79). -/
structure DigitFacts (k v nd : Nat) : Prop where
  le_six : nd = 1 → v ≤ 6
  pos : nd = 2 → 1 ≤ v
  le_of_not_spanning : k ∉ spanningOrders → nd = 1 ∨ 10 ^ (nd - 1) ≤ v

/-- `DigitFacts` for a whole bucket, at the end of the bucket where they are tightest. -/
def rowDigits (k nd : Nat) : Bool :=
  decide ((nd = 1 → bucketTop k ≤ 7) ∧ (nd = 2 → 2 ≤ 2 ^ (32 - k)) ∧
    (k ∉ spanningOrders → nd = 1 ∨ 10 ^ (nd - 1) + 1 ≤ 2 ^ (32 - k)))

/-- The digit counts of the 33 rows of `SCALE_ROM`, evaluated. -/
theorem scaleRom_rowDigits :
    ∀ k : BitVec 6, (scaleRom k).all (fun w => rowDigits k.toNat (scaleNd w).toNat) = true := by
  decide

/-- A row gives its facts for every Value of its bucket. -/
theorem digitFacts_of_rowDigits {k v nd : Nat} (hrow : rowDigits k nd = true) (hv : inBucket k v) (hlt : v < 2 ^ 32) :
    DigitFacts k v nd := by
  obtain ⟨hsix, hpos, hspan⟩ := of_decide_eq_true hrow
  obtain ⟨hmin, hmax⟩ := hv
  have htop : v + 1 ≤ bucketTop k := le_min (by omega) hlt
  refine ⟨fun h => ?_, fun h => ?_, fun h => ?_⟩
  · have := hsix h
    omega
  · have := hpos h
    omega
  · exact (hspan h).imp_right fun hlow => by omega

/-- The Scale Entry of a Value satisfies the facts of R79. -/
theorem isEntry.digitFacts {v : Value} {nd : BitVec 4} {pre : BitVec 57} (h : isEntry v nd pre) :
    DigitFacts (order v).toNat v.toNat nd.toNat := by
  obtain ⟨w, hw, rfl, rfl⟩ := h
  have hrow := scaleRom_rowDigits (order v)
  rw [hw] at hrow
  exact digitFacts_of_rowDigits hrow (inBucket_order v) v.isLt

/-- From `ND = 2` on, at least `ND - 1` digits (R79, part 2). -/
theorem DigitFacts.pow_le {k v nd pre : Nat} (h : DigitFacts k v nd) (hfacts : EntryFacts v nd pre) (hnd : 2 ≤ nd) :
    10 ^ (nd - 2) ≤ v := by
  rcases hfacts.le_value with hle | hlow
  · obtain rfl : nd = 2 := by omega
    exact h.pos rfl
  · exact hlow

/-- `ND` is the digit count, or one more, and that only in the lower part of a spanning bucket (R79, part 1). -/
theorem DigitFacts.ndigits_eq_or {k v nd pre : Nat} (h : DigitFacts k v nd) (hfacts : EntryFacts v nd pre) :
    ndigits v = nd ∨ (ndigits v = nd - 1 ∧ v < 10 ^ (nd - 1) ∧ k ∈ spanningOrders) := by
  have hcount := hfacts.ndigits_eq
  rcases hfacts.nd_pos.eq_or_lt' with rfl | hnd
  · have hsix := h.le_six rfl
    exact .inl (ndigits_of_lt_ten (by omega))
  · have hexp : nd - 2 + 1 = nd - 1 := by omega
    rw [hexp] at hcount
    split at hcount
    · exact .inl (by omega)
    · next hlow =>
      have hspan : k ∈ spanningOrders := by
        by_contra hnot
        rcases h.le_of_not_spanning hnot with hone | hle
        · omega
        · exact hlow hle
      exact .inr ⟨by omega, by omega, hspan⟩

end Sys2Proof.Machine

namespace Sys2Proof.Proofs
open Sys2Proof.Machine

/-- Settles O7: the Order is the `k` whose bucket holds the Value, `order_toNat_eq_iff`. -/
theorem orderSelectsItsBucket : Obligations.OrderSelectsItsBucket := by
  intro v
  refine ⟨order_toNat_le v, fun k _ hk => ?_, ?_⟩
  · rw [order_toNat_eq_iff hk, inBucket_iff_bounds hk]
  · rw [order_toNat_eq_iff (Nat.zero_le 32), inBucket_zero_iff]

/-- Settles O5: the rows are evaluated in `scaleRom_rowFormulas`. -/
theorem scaleRomFollowsItsFormulas : Obligations.ScaleRomFollowsItsFormulas := by
  intro k
  constructor
  · intro hk
    obtain ⟨w, hw⟩ := exists_scaleRom hk
    exact ⟨w, hw, scaleRom_fields hw⟩
  · intro hk
    rw [← Option.not_isSome_iff_eq_none, scaleRom_isSome_iff]
    omega

/-- Settles O8: `PREDICT` reads the row of the Order of `V`, which is `k`, and that row follows its formulas. -/
theorem predictWritesTheScaleEntry : Obligations.PredictWritesTheScaleEntry := by
  intro s k hk hbucket
  have horder : (order s.v).toNat = k := (order_toNat_eq_iff hk).mpr hbucket
  obtain ⟨w, hw⟩ := exists_scaleRom (order_toNat_le s.v)
  obtain ⟨hnd, hpre⟩ := scaleRom_fields hw
  have hnext : exec .predict s = .next { s.beginStep with
      ord := order s.v, nd := scaleNd w, pre := scalePre w, phase := Phase.scale } :=
    execPredict_eq_next.mpr ⟨w, hw, rfl⟩
  rw [hnext, ← horder, ← hnd, ← hpre]
  simp only [State.beginStep, BitVec.ofNat_toNat, BitVec.setWidth_eq]

/-- Settles O9: by what `ND` says of the Values of its bucket, `EntryFacts` and `DigitFacts`. -/
theorem predictorGuarantees : Obligations.PredictorGuarantees := by
  intro v nd pre hentry
  have hfacts := hentry.facts
  have hdigits := hentry.digitFacts
  refine ⟨hdigits.ndigits_eq_or hfacts, fun hnd => ⟨hdigits.pow_le hfacts hnd, hfacts.value_lt⟩, hdigits.le_six, ?_⟩
  rw [hfacts.ndigits_eq]
  split_ifs <;> omega

end Sys2Proof.Proofs
end

section
/-!
SUPPORT. The Fixed-Point Scaler: what `SCALE` writes, the largest corrected product, and the loss of the prescale that the
correction makes up for (R81 to R87).
-/
namespace Sys2Proof.Machine

/-! ### What `SCALE` writes -/

/-- The 64-bit sum of a product that fits and its correction (R81, R82). -/
theorem add_correction {v : Value} {pre : Nat} {p : Acc} (hp : p.toNat = (v.toNat + 1) * pre) :
    p + correction p v = BitVec.ofNat 64 (scaledSum v.toNat pre) := by
  apply BitVec.eq_of_toNat_eq
  rw [BitVec.toNat_add, correction_toNat, hp, BitVec.toNat_ofNat, scaledSum]

/-- On its domain `SCALE` writes the corrected product and the digits that remain (R81 to R83). -/
theorem exec_scale {s : State} (hpos : 1 ≤ s.nd.toNat) (hle : s.nd.toNat ≤ 10)
    (hproduct : (s.v.toNat + 1) * s.pre.toNat < 2 ^ 64) :
    exec .scale s = .next { s.beginStep with
      frac := BitVec.ofNat 64 (scaledSum s.v.toNat s.pre.toNat), rem := rem0 s.nd, phase := Phase.lead } := by
  have hp := (BitVec.toNat_ofNat _ 64).trans (Nat.mod_eq_of_lt hproduct)
  rw [← add_correction hp]
  exact execScale_eq_next.mpr ⟨hpos, hle, _, hp, rfl⟩

/-- The corrected product is below `100 * UNIT` (R84). -/
theorem EntryFacts.scaledSum_lt {v nd pre : Nat} (h : EntryFacts v nd pre) : scaledSum v pre < 100 * Config.unit :=
  h.lt_of_scaledOk h.scaledOk_scaledSum

theorem product_le_scaledSum (v pre : Nat) : (v + 1) * pre ≤ scaledSum v pre := Nat.le_add_right _ _

/-- The accumulator gives the digits of a Value down to any of its last `r` (R85). -/
theorem scaledOk.mul_pow_div_unit {m r x j : Nat} (h : scaledOk m r x) (hj : j ≤ r) :
    x * 10 ^ j / Config.unit = m / 10 ^ (r - j) :=
  scaledOk.div_unit (scaledOk.shift (by rwa [Nat.sub_add_cancel hj]))

/-! ### The largest corrected product -/

/-- No Value is past the end of the bucket of its Order (R75, R76). -/
theorem lt_bucketTop_order (v : Value) : v.toNat < bucketTop (order v).toNat := by
  obtain ⟨-, hmax⟩ := inBucket_order v
  exact lt_min (by omega) v.isLt

/-- A larger Value with the same prescale has no smaller corrected product. -/
theorem scaledSum_mono {v w : Nat} (h : v ≤ w) (pre : Nat) : scaledSum v pre ≤ scaledSum w pre := by
  have hproduct : (v + 1) * pre ≤ (w + 1) * pre := by gcongr
  have hhalf : v / 2 ≤ w / 2 := Nat.div_le_div_right h
  unfold scaledSum
  split_ifs <;> omega

/-- The 33 rows of `SCALE_ROM` at the largest Value of their buckets, evaluated (R84). -/
theorem scaleRom_scaledSum_le :
    ∀ k : BitVec 6,
      (scaleRom k).all (fun w =>
        decide (scaledSum (bucketTop k.toNat - 1) (scalePre w).toNat ≤ 12089256754993918409)) = true := by
  decide

/-- No Value has a larger corrected product than the one R84 names. -/
theorem isEntry.scaledSum_le {v : Value} {nd : BitVec 4} {pre : BitVec 57} (h : isEntry v nd pre) :
    scaledSum v.toNat pre.toNat ≤ 12089256754993918409 := by
  obtain ⟨w, hw, rfl, rfl⟩ := h
  have hrow := scaleRom_scaledSum_le (order v)
  rw [hw] at hrow
  exact (scaledSum_mono (Nat.le_sub_one_of_lt (lt_bucketTop_order v)) _).trans (of_decide_eq_true hrow)

/-- The Value at which the largest corrected product is reached belongs to Order 10 (R84). -/
theorem scaleRom_order_largest : scaleRom (order 8388606#32) = some 0x0E00014F8B588E36#61 := by decide

/-! ### The loss without the correction -/

/-- For each unit of `V + 1` the prescale loses something (R74). -/
theorem EntryFacts.prescaleLoss_pos {v nd pre : Nat} (h : EntryFacts v nd pre) : 0 < prescaleLoss (nd - 2) pre := by
  have hpow : 0 < 10 ^ (nd - 2) := by positivity
  have hhalf := h.pow_le_two_mul_loss
  omega

/-- The uncorrected accumulator is below `V` exactly when more than `UNIT` is lost (R86, R87). -/
theorem EntryFacts.product_lt_iff {v nd pre : Nat} (h : EntryFacts v nd pre) :
    (v + 1) * pre * 10 ^ (nd - 2) < v * Config.unit ↔ Config.unit / prescaleLoss (nd - 2) pre ≤ v := by
  have hproduct := h.product_add_loss
  rw [Nat.add_one_mul v Config.unit] at hproduct
  rw [← Nat.lt_add_one_iff, Nat.div_lt_iff_lt_mul h.prescaleLoss_pos]
  omega

/-- Either the losses of a row pass `UNIT` at the Value that R87 names, whose product has reached `TENS`, or all Values of
its bucket are below that one and lose too little. -/
def rowLoss (k nd pre : Nat) : Bool :=
  decide ((Config.unit / prescaleLoss (nd - 2) pre = 1899855400 ∧ Config.tens ≤ (1899855400 + 1) * pre) ∨
    (bucketTop k ≤ 1899855400 ∧ bucketTop k ≤ Config.unit / prescaleLoss (nd - 2) pre))

/-- The losses of the 33 rows of `SCALE_ROM`, evaluated. -/
theorem scaleRom_rowLoss :
    ∀ k : BitVec 6, (scaleRom k).all (fun w => rowLoss k.toNat (scaleNd w).toNat (scalePre w).toNat) = true := by
  decide

/-- The losses of a Value's own row: those of the largest Values pass `UNIT`, and the smaller ones lose too little. -/
theorem isEntry.loss_cases {v : Value} {nd : BitVec 4} {pre : BitVec 57} (h : isEntry v nd pre) :
    (Config.unit / prescaleLoss (nd.toNat - 2) pre.toNat = 1899855400 ∧ Config.tens ≤ (1899855400 + 1) * pre.toNat) ∨
    (v.toNat < 1899855400 ∧ v.toNat < Config.unit / prescaleLoss (nd.toNat - 2) pre.toNat) := by
  obtain ⟨w, hw, rfl, rfl⟩ := h
  have hrow := scaleRom_rowLoss (order v)
  rw [hw] at hrow
  exact (of_decide_eq_true hrow).imp_right fun ⟨hsmall, hloss⟩ =>
    ⟨(lt_bucketTop_order v).trans_le hsmall, (lt_bucketTop_order v).trans_le hloss⟩

end Sys2Proof.Machine

namespace Sys2Proof.Proofs
open Sys2Proof.Machine

/-- Settles O10: `exec_scale`, with the registers in the spec's arithmetic. -/
theorem scaleComputesTheProduct : Obligations.ScaleComputesTheProduct := by
  intro s hpos hle hproduct
  have hrem : rem0 s.nd = BitVec.ofNat 4 (s.nd.toNat - 2) := by
    rw [← rem0_toNat, BitVec.ofNat_toNat, BitVec.setWidth_eq]
  rw [exec_scale hpos hle hproduct, hrem]
  rfl

/-- Settles O12: the corrected product does not wrap, and it carries the digits of `V` (`EntryFacts.scaledOk_scaledSum`). -/
theorem scalerPostcondition : Obligations.ScalerPostcondition := by
  intro s hentry
  have hfacts := hentry.facts
  have hscaled := hfacts.scaledOk_scaledSum
  have hunit : 100 * Config.unit < 2 ^ 64 := by decide
  have hsum := hfacts.scaledSum_lt.trans hunit
  have hnext := exec_scale hfacts.nd_pos hfacts.nd_le ((product_le_scaledSum _ _).trans_lt hsum)
  refine ⟨_, hnext, rem0_toNat s.nd, ?_⟩
  simp only [rem0_toNat, BitVec.toNat_ofNat, Nat.mod_eq_of_lt hsum]
  exact ⟨hscaled.1, hscaled.2, fun j hj => hscaled.mul_pow_div_unit hj⟩

/-- Settles O13: the sum is largest at the end of a bucket, `scaleRom_scaledSum_le`, and Order 10 reaches the maximum. -/
theorem scalerNeverOverflows : Obligations.ScalerNeverOverflows := by
  constructor
  · intro v nd pre hentry
    exact ⟨(product_le_scaledSum _ _).trans_lt hentry.facts.scaledSum_lt, hentry.scaledSum_le⟩
  · rintro nd pre ⟨w, hw, -, rfl⟩
    obtain rfl : 0x0E00014F8B588E36#61 = w := Option.some.inj (scaleRom_order_largest.symm.trans hw)
    decide

/-- Settles O14: the uncorrected accumulator is below `V` when the loss passes `UNIT` (`EntryFacts.product_lt_iff`), which
the rows allow from the named Value on only. -/
theorem correctionIsNecessary : Obligations.CorrectionIsNecessary := by
  intro v nd pre hentry
  rw [hentry.facts.product_lt_iff]
  rcases hentry.loss_cases with ⟨hloss, htens⟩ | ⟨hsmall, hloss⟩
  · exact ⟨by rw [hloss], fun hv => htens.trans (by gcongr)⟩
  · exact ⟨by omega, fun hv => absurd hv (Nat.not_le.mpr hsmall)⟩

end Sys2Proof.Proofs
end

section
/-!
SUPPORT. The Digit Extractor on its domain: what `LEAD`, `PAIR` and `LAST` write, and the lead step after `SCALE` (R91 to
R97).
-/
namespace Sys2Proof.Machine

/-! ### Registers as numbers -/

/-- `fpart` as the number it holds (R94). -/
theorem fpart_eq_ofNat (t : Acc) : fpart t = BitVec.ofNat 64 (t.toNat % Config.unit) := by
  rw [← fpart_toNat, BitVec.ofNat_toNat, BitVec.setWidth_eq]

theorem add_ofNat_eq_ofNat (len : BitVec 4) (n : Nat) : len + BitVec.ofNat 4 n = BitVec.ofNat 4 (len.toNat + n) := by
  rw [BitVec.ofNat_add, BitVec.ofNat_toNat, BitVec.setWidth_eq]

/-- `LEN` counts at most ten bytes, so its four bits hold the count (R16). -/
theorem toNat_ofNat_len {n : Nat} (h : n ≤ 10) : (BitVec.ofNat 4 n).toNat = n := by
  rw [BitVec.toNat_ofNat, Nat.mod_eq_of_lt (by omega)]

theorem afterPhase_eq_phaseFor (r : BitVec 4) : afterPhase r = phaseFor r.toNat := rfl

/-- `PAIR` lowers `REM` by 2 without wrapping (R92). -/
theorem toNat_sub_two {r : BitVec 4} (h : 2 ≤ r.toNat) : (r - 2#4).toNat = r.toNat - 2 := BitVec.toNat_sub_of_le h

/-! ### Emissions -/

/-- The emission of a digit `n`, with the character of `n` and room in `LEN` (R91, R93). -/
theorem emitDigit_of_toNat {q : Key} {n : Nat} {s : State} (hq : q.toNat = n) (hn : n < 10) (hlen : s.len.toNat ≤ 9) :
    emitDigit q s = .next { s with
      out := s.out.write (wrapAddr s.aw s.cur) (asciiDigit n)
      wr := some ⟨s.cur, asciiDigit n, Config.freeLane s.free, 0b01#2⟩
      cur := wrapAddr s.aw (s.cur + 1)
      len := BitVec.ofNat 4 (s.len.toNat + 1) } := by
  have hchar : digitChar q = asciiDigit n := hq ▸ digitChar_eq q
  rw [emitDigit_eq_next, hchar, ← add_ofNat_eq_ofNat]
  exact ⟨by omega, by omega, rfl⟩

/-- The emission of a pair `n`, with the two characters of `n` and room in `LEN` (R91, R92). -/
theorem emitPair_of_toNat {q : Key} {n : Nat} {s : State} (hq : q.toNat = n) (hn : n < 100) (hlen : s.len.toNat ≤ 8) :
    emitPair q s = .next { s with
      out := (s.out.write (wrapAddr s.aw s.cur) (asciiDigit (n / 10))).write (wrapAddr s.aw (s.cur + 1))
        (asciiDigit (n % 10))
      wr := some ⟨s.cur, asciiDigit (n / 10), asciiDigit (n % 10), 0b11#2⟩
      cur := wrapAddr s.aw (s.cur + 2)
      len := BitVec.ofNat 4 (s.len.toNat + 2) } := by
  subst hq
  obtain ⟨w, hw⟩ := Option.isSome_iff_exists.mp ((pairRom_isSome_iff q).mpr hn)
  obtain ⟨htens, hones⟩ := pairRom_asciiDigits hw
  rw [emitPair_eq_next, ← htens, ← hones, ← add_ofNat_eq_ofNat]
  exact ⟨w, hw, by omega, rfl⟩

end Sys2Proof.Machine

namespace Sys2Proof.Proofs
open Sys2Proof.Machine

/-- Settles O15: from `TENS` on `LEAD` emits the integer part of `FRAC`, a number below 100, as a pair. -/
theorem leadEmitsTwoDigits : Obligations.LeadEmitsTwoDigits := by
  intro s htens hfrac hlen
  have hkey : s.frac.toNat / Config.unit < 100 := ipart_toNat s.frac ▸ ipart_lt hfrac
  have hemit := emitPair_of_toNat (s := s.beginStep) (ipart_toNat s.frac) hkey hlen
  rw [← fpart_eq_ofNat]
  exact execLead_eq_next.mpr ⟨_, (if_pos ((atLeastTens_iff _).mpr htens)).trans hemit, rfl⟩

/-- Settles O16: below `TENS` `LEAD` emits the integer part of `FRAC`, a number below 10, as one digit. -/
theorem leadEmitsOneDigit : Obligations.LeadEmitsOneDigit := by
  intro s hfrac hlen
  have hkey : s.frac.toNat / Config.unit < 10 := ipart_toNat s.frac ▸ ipart_lt hfrac
  have hemit := emitDigit_of_toNat (s := s.beginStep) (ipart_toNat s.frac) hkey hlen
  have hbelow : ¬ atLeastTens s.frac = true := mt (atLeastTens_iff _).mp (Nat.not_le.mpr hfrac)
  rw [← fpart_eq_ofNat]
  exact ⟨_, execLead_eq_next.mpr ⟨_, (if_neg hbelow).trans hemit, rfl⟩⟩

/-- Settles O17: `FRAC * 100` is below `100 * UNIT`, so it fits and its integer part is a key of `PAIR_ROM`. -/
theorem pairEmitsTwoDigits : Obligations.PairEmitsTwoDigits := by
  intro s hrem hfrac hlen
  obtain ⟨p, hp⟩ := exists_acc (n := s.frac.toNat * 100) (by omega)
  have hkey : (ipart p).toNat = s.frac.toNat * 100 / Config.unit := by rw [ipart_toNat, hp]
  have hlt : (ipart p).toNat < 100 := ipart_lt (by omega)
  have hemit := emitPair_of_toNat (s := s.beginStep) hkey (hkey ▸ hlt) hlen
  rw [← toNat_sub_two hrem, ← afterPhase_eq_phaseFor, BitVec.ofNat_toNat, BitVec.setWidth_eq, ← hp,
    ← fpart_eq_ofNat, hp]
  exact execPair_eq_next.mpr ⟨hrem, p, hp, _, hemit, rfl⟩

/-- Settles O18: `FRAC * 10` is below `10 * UNIT`, so it fits and its integer part is a digit. -/
theorem lastEmitsOneDigit : Obligations.LastEmitsOneDigit := by
  intro s hrem hfrac hlen
  obtain ⟨p, hp⟩ := exists_acc (n := s.frac.toNat * 10) (by omega)
  have hkey : (ipart p).toNat = s.frac.toNat * 10 / Config.unit := by rw [ipart_toNat, hp]
  have hlt : (ipart p).toNat < 10 := ipart_lt (by omega)
  have hemit := emitDigit_of_toNat (s := s.beginStep) hkey (hkey ▸ hlt) hlen
  rw [← hp, ← fpart_eq_ofNat, hp]
  exact ⟨_, execLast_eq_next.mpr ⟨hrem, p, hp, _, hemit, rfl⟩⟩

/-- Settles O20: `SCALE` leaves the Value over `10^f` in the accumulator (O12), whose integer part `LEAD` emits in the
branch that `TENS` selects (O15, O16). -/
theorem leadStepAgreesWithTheValue : Obligations.LeadStepAgreesWithTheValue := by
  intro s hentry hlen
  obtain ⟨t, hscale, hrem, hlow, hhigh, -⟩ := scalerPostcondition s hentry
  obtain ⟨-, -, -, -, -, -, hkept⟩ := registersHaveTheirWritersOnly .scale s t nofun hscale
  obtain ⟨hcur, hlenKept⟩ := hkept nofun nofun nofun nofun
  rw [hrem, ← rem0_toNat] at hlow hhigh
  have hscaled : scaledOk s.v.toNat (rem0 s.nd).toNat t.frac.toNat := ⟨hlow, hhigh⟩
  have hfits : t.frac.toNat < 100 * Config.unit := hentry.facts.lt_of_scaledOk (by rwa [← rem0_toNat])
  rw [← hlenKept] at hlen ⊢
  rw [← hcur, ← hscaled.div_unit, ← Nat.not_le, ← hscaled.tens_le_iff]
  by_cases htens : Config.tens ≤ t.frac.toNat
  · have hlead := leadEmitsTwoDigits t htens hfits hlen
    refine ⟨t, _, _, hscale, hlead, rfl, rfl, by simp [htens], by simp [htens], fun _ => ⟨rfl, rfl, ?_⟩, ?_⟩
    · exact toNat_ofNat_len (by omega)
    · simp
  · obtain ⟨lane1, hlead⟩ := leadEmitsOneDigit t (Nat.lt_of_not_le htens) (by omega)
    refine ⟨t, _, _, hscale, hlead, rfl, rfl, by simp [htens], by simp [htens], ?_, fun _ => ⟨rfl, ?_⟩⟩
    · simp
    · exact toNat_ofNat_len (by omega)

end Sys2Proof.Proofs
end

section
/-!
SUPPORT. The first byte of a call: the digit that `LEAD` writes at the starting cursor, and that nothing after it overwrites
that byte (R97, R99).
-/
namespace Sys2Proof.Machine

/-! ### The first digit of a Value -/

/-- The first digit that the lead step emits for `v` with `f` digits after it (R91, R97). -/
def leadDigit (v f : Nat) : Nat := if 10 ^ (f + 1) ≤ v then v / 10 ^ f / 10 else v / 10 ^ f

theorem isEntry.pow_le_of_ne_zero {v : Value} {nd : BitVec 4} {pre : BitVec 57} (h : isEntry v nd pre)
    (hv : v.toNat ≠ 0) : 10 ^ (nd.toNat - 2) ≤ v.toNat := by
  by_cases hnd : 2 ≤ nd.toNat
  · exact h.digitFacts.pow_le h.facts hnd
  · have hzero : nd.toNat - 2 = 0 := by omega
    rw [hzero, pow_zero]
    omega

/-- With the Scale Entry of the Value the first digit is one, and is 0 only for the Value 0 (R79, R99). -/
theorem isEntry.leadDigit_spec {v : Value} {nd : BitVec 4} {pre : BitVec 57} (h : isEntry v nd pre) :
    leadDigit v.toNat (nd.toNat - 2) ≤ 9 ∧ (leadDigit v.toNat (nd.toNat - 2) = 0 ↔ v.toNat = 0) := by
  have hlow := h.pow_le_of_ne_zero
  have hhigh := h.facts.value_lt
  generalize nd.toNat - 2 = f at hlow hhigh ⊢
  have hpow : 0 < 10 ^ f := by positivity
  have hpowOne : 10 ^ (f + 1) = 10 ^ f * 10 := pow_succ 10 f
  have hpowTwo : 10 ^ (f + 2) = 10 ^ (f + 1) * 10 := pow_succ 10 (f + 1)
  unfold leadDigit
  split
  · next hpair =>
    have hpos : 0 < v.toNat / 10 ^ (f + 1) := Nat.div_pos hpair (by positivity)
    have hlt : v.toNat / 10 ^ (f + 1) < 10 := Nat.div_lt_of_lt_mul (by omega)
    rw [Nat.div_div_eq_div_mul, ← pow_succ]
    omega
  · next hsingle =>
    have hlt : v.toNat / 10 ^ f < 10 := Nat.div_lt_of_lt_mul (by omega)
    rw [Nat.div_eq_zero_iff]
    omega

theorem asciiDigit_ne_zero {d : Nat} (hd : d ≤ 9) (hne : d ≠ 0) : asciiDigit d ≠ asciiDigit 0 := by
  intro h
  have hnat := congrArg BitVec.toNat h
  simp only [asciiDigit, BitVec.toNat_ofNat] at hnat
  omega

/-! ### The byte that `LEAD` writes -/

/-- Lane 0 of a beat is read back at the cursor: lane 1 does not reach round to it, because `AW >= 4` (R7, R33). -/
theorem PerformsBeat.read_cursor {s t : State} {n : Nat} {b : WriteBeat} (haw : awLegal s.aw = true)
    (h : PerformsBeat s t n) (hb : t.wr = some b) : t.out.read (wrapAddr s.aw s.cur) = some b.lane0 := by
  obtain ⟨haddr, ⟨-, hout⟩ | ⟨-, hout⟩⟩ := h.of_wr_eq_some hb
  · rw [hout, haddr, Memory.read_write_same]
  · have hne : wrapAddr s.aw s.cur ≠ wrapAddr s.aw (s.cur + 1) :=
      wrapAddr_ne haw s.cur (i := 0) (by decide) (by decide) (by decide)
    rw [hout, haddr, Memory.read_write_of_ne _ _ hne, Memory.read_write_same]

/-- After `SCALE` with the Scale Entry of the Value, the lead step writes its first digit at the cursor (R97). -/
theorem read_cursor_of_scale_lead {s t u : State} (haw : awLegal s.aw = true) (hentry : isEntry s.v s.nd s.pre)
    (hlen : s.len.toNat ≤ 8) (hscale : execScale s = .next t) (hlead : execLead t = .next u) :
    u.out.read (wrapAddr s.aw s.cur) = some (asciiDigit (leadDigit s.v.toNat (s.nd.toNat - 2))) := by
  obtain ⟨t', u', b, hscale', hlead', hwr, haddr, hpair, hsingle, hlanes, hlane⟩ :=
    Proofs.leadStepAgreesWithTheValue s hentry hlen
  obtain rfl : t' = t := Host.Outcome.next.inj (hscale'.symm.trans hscale)
  obtain rfl : u' = u := Host.Outcome.next.inj (hlead'.symm.trans hlead)
  obtain ⟨hawKept, -, -, -, -, -, hkept⟩ := Proofs.registersHaveTheirWritersOnly .scale s t' nofun hscale
  obtain ⟨hcur, -⟩ := hkept nofun nofun nofun nofun
  rw [← hcur, ← hawKept, (execLead_performsBeat hlead).read_cursor (hawKept ▸ haw) hwr, ← rem0_toNat, leadDigit]
  split
  · next hge =>
    obtain ⟨htens, -⟩ := hlanes (hpair.mpr hge)
    rw [htens]
  · next hlt =>
    obtain ⟨hdigit, -⟩ := hlane (hsingle.mpr (Nat.lt_of_not_le hlt))
    rw [hdigit]

/-! ### The byte is kept -/

/-- A call for `value` from the address `start` has written the byte `b` there, and its cursor stands `LEN` bytes further
(R36, R96). -/
structure FirstByteWritten (aw : Nat) (value : Value) (start : Nat) (b : Byte) (s : State) : Prop where
  aw_eq : s.aw = aw
  v_eq : s.v = value
  cur_eq : s.cur = wrapAddr aw (start + s.len.toNat)
  len_pos : 1 ≤ s.len.toNat
  read_eq : s.out.read (wrapAddr aw start) = some b

section
variable {aw : Nat} {value : Value} {start : Nat} {b : Byte} {s t : State}

/-- A beat past the first byte leaves that byte alone: a call writes at most ten bytes, and `AW >= 4` (R7, R144). -/
theorem FirstByteWritten.of_emits {n : Nat} {u : State} (haw : awLegal aw = true) (h : FirstByteWritten aw value start b s)
    (hemits : Emits n s.beginStep u) {frac : Acc} {rem : BitVec 4} {phase : BitVec 3}
    (hbeat : PerformsBeat s { u with frac := frac, rem := rem, phase := phase } n) :
    FirstByteWritten aw value start b { u with frac := frac, rem := rem, phase := phase } := by
  obtain ⟨rfl, rfl, hcur, hpos, hread⟩ := h
  have hlen : u.len.toNat = s.len.toNat + n := hemits.len_toNat
  obtain ⟨m, beat, rfl, hroom, -⟩ := hemits
  have hroom : s.len.toNat + n ≤ 10 := hroom
  have hne : ∀ j < n, wrapAddr s.aw start ≠ wrapAddr s.aw (s.cur + j) := by
    intro j hj
    rw [hcur, wrapAddr_add, Nat.add_assoc]
    exact wrapAddr_ne haw start (i := 0) (by decide) (by omega) (by omega)
  refine ⟨rfl, rfl, ?_, by simp only [hlen]; omega, (hbeat.read_of_ne hne).trans hread⟩
  simp only [hlen, beginStep_aw, beginStep_cur]
  rw [hcur, wrapAddr_add, Nat.add_assoc]

theorem FirstByteWritten.execPair (haw : awLegal aw = true) (h : FirstByteWritten aw value start b s)
    (hpair : execPair s = .next t) : FirstByteWritten aw value start b t := by
  have hbeat := exec_performsBeat (i := .pair) nofun hpair
  obtain ⟨-, p, -, u, hemits, rfl⟩ := execPair_emits hpair
  exact h.of_emits haw hemits hbeat

theorem FirstByteWritten.execLast (haw : awLegal aw = true) (h : FirstByteWritten aw value start b s)
    (hlast : execLast s = .next t) : FirstByteWritten aw value start b t := by
  have hbeat := exec_performsBeat (i := .last) nofun hlast
  obtain ⟨-, p, -, u, hemits, rfl⟩ := execLast_emits hlast
  exact h.of_emits haw hemits hbeat

theorem FirstByteWritten.repeatPair {n : Nat} (haw : awLegal aw = true) (h : FirstByteWritten aw value start b s)
    (hpairs : repeatPair n s = .next t) : FirstByteWritten aw value start b t := by
  induction n generalizing s with
  | zero =>
    cases hpairs
    exact h
  | succ n ih =>
    obtain ⟨u, hu, ht⟩ := repeatPair_succ_eq_next.mp hpairs
    exact ih (h.execPair haw hu) ht

theorem FirstByteWritten.lastIfOne (haw : awLegal aw = true) (h : FirstByteWritten aw value start b s)
    (hlast : (if s.rem.toNat = 1 then Machine.execLast s else .next s) = .next t) :
    FirstByteWritten aw value start b t := by
  split at hlast
  · exact h.execLast haw hlast
  · cases hlast
    exact h

end

/-- After the lead step the first byte of the call is written (R91). -/
theorem firstByteWritten_of_execLead {s t : State} {b : Byte} (h : execLead s = .next t) (hlen : s.len = 0#4)
    (hread : t.out.read (wrapAddr s.aw s.cur) = some b) : FirstByteWritten s.aw s.v s.cur b t := by
  obtain ⟨u, hemits, rfl⟩ := execLead_emits h
  have hcount : u.len.toNat = s.len.toNat + _ := hemits.len_toNat
  rw [hlen, BitVec.toNat_ofNat, Nat.zero_mod, Nat.zero_add] at hcount
  obtain ⟨m, beat, rfl, -⟩ := hemits
  refine ⟨rfl, rfl, ?_, ?_, hread⟩
  · simp only [hcount, beginStep_aw, beginStep_cur]
  · simp only [hcount]
    split <;> decide

/-- After `SCALE` and the lead step the first byte of the call is the first digit of the Value (R97, R99). -/
theorem firstByteWritten_of_scale_lead {s t u : State} (hscale : execScale s = .next t) (hlead : execLead t = .next u)
    (haw : awLegal s.aw = true) (hentry : isEntry s.v s.nd s.pre) (hlen : s.len = 0#4) :
    FirstByteWritten s.aw s.v s.cur (asciiDigit (leadDigit s.v.toNat (s.nd.toNat - 2))) u := by
  have hread := read_cursor_of_scale_lead haw hentry (by simp [hlen]) hscale hlead
  obtain ⟨-, -, p, -, rfl⟩ := execScale_eq_next.mp hscale
  exact (firstByteWritten_of_execLead hlead hlen hread :)

/-! ### The whole call -/

theorem leadingOk_of_execScale {s t : State} (h : execScale s = .next t) (haccepted : acceptedOk s)
    (hpredicted : predictedOk s) : leadingOk t := by
  obtain ⟨-, -, -, hleading, -⟩ := execScale_callOk haccepted hpredicted h
  obtain ⟨-, -, p, -, rfl⟩ := execScale_eq_next.mp h
  exact hleading rfl

/-- From the lead step on a call comes to its end with all its digits (R96, R119). -/
theorem finishedOk_of_extraction {scaled led paired ended : State} (hleading : leadingOk scaled)
    (hlead : execLead scaled = .next led) (hpairs : repeatPair (led.rem.toNat / 2) led = .next paired)
    (hlast : (if paired.rem.toNat = 1 then execLast paired else .next paired) = .next ended) : finishedOk ended := by
  obtain ⟨led', hlead', hbetween⟩ := exists_execLead_betweenDigits hleading
  obtain rfl := Host.Outcome.next.inj (hlead'.symm.trans hlead)
  obtain ⟨paired', hpairs', hrest, hrem⟩ := hbetween.exists_repeatPair (n := led'.rem.toNat / 2) (by omega)
  obtain rfl := Host.Outcome.next.inj (hpairs'.symm.trans hpairs)
  obtain ⟨ended', hlast', hfinished⟩ := hrest.exists_last (by omega)
  obtain rfl := Host.Outcome.next.inj (hlast'.symm.trans hlast)
  exact hfinished

/-- At the end of a call that has written its first byte, `LEN` is the digit count: the call has not failed for its
capacity, or nothing would be written (R96, R134). -/
theorem FirstByteWritten.len_eq {aw : Nat} {value : Value} {start : Nat} {b : Byte} {s : State}
    (h : FirstByteWritten aw value start b s) (hfinished : finishedOk s) : s.len.toNat = ndigits value.toNat := by
  rcases hfinished with ⟨-, hzero, -⟩ | ⟨-, -, hlen⟩
  · have hpos := h.len_pos
    simp [hzero] at hpos
  · rw [hlen, h.v_eq]

/-- An accepted call ends with a digit at the cursor it started from, which is 0 only for the Value 0 (R99). -/
theorem finishCall_firstByte {s t : State} (haw : awLegal s.aw = true) (haccepted : acceptedOk s)
    (h : finishCall s = .next t) :
    ∃ d ≤ 9, (d = 0 ↔ s.v.toNat = 0) ∧ t.out.read (wrapAddr s.aw s.cur) = some (asciiDigit d) ∧
      t.len.toNat = ndigits s.v.toNat := by
  obtain ⟨predicted, scaled, led, paired, ended, hpredict, hscale, hlead, hpairs, hlast, hdone⟩ :=
    finishCall_eq_next.mp h
  obtain ⟨w, hw, rfl⟩ := execPredict_eq_next.mp hpredict
  have hentry : isEntry s.v (scaleNd w) (scalePre w) := ⟨w, hw, rfl, rfl⟩
  have hfinished := finishedOk_of_extraction (leadingOk_of_execScale hscale haccepted ⟨rfl, hentry⟩) hlead hpairs hlast
  obtain ⟨-, hlen, -⟩ := haccepted
  have hled : FirstByteWritten s.aw s.v s.cur (asciiDigit (leadDigit s.v.toNat ((scaleNd w).toNat - 2))) led :=
    (firstByteWritten_of_scale_lead hscale hlead haw hentry hlen :)
  have hended := (hled.repeatPair haw hpairs).lastIfOne haw hlast
  obtain ⟨-, rfl⟩ := execDone_eq_next.mp hdone
  obtain ⟨hdigit, hzero⟩ := hentry.leadDigit_spec
  exact ⟨_, hdigit, hzero, hended.read_eq, hended.len_eq hfinished⟩

end Sys2Proof.Machine

namespace Sys2Proof.Proofs
open Sys2Proof.Machine

/-- Settles O40: the byte at the starting cursor is a digit that is 0 only for the Value 0 (`finishCall_firstByte`), and
that Value has one digit. -/
theorem noLeadingZeroIsEmitted : Obligations.NoLeadingZeroIsEmitted := by
  intro s value cursor capacity haw hidle hwf hcap
  obtain ⟨hcursor, hcapacity⟩ : cursor < 2 ^ s.aw ∧ capacity < 2 ^ s.aw := by
    simpa [Instr.wellFormed, fitsAddr] using hwf
  obtain ⟨t, ht⟩ := exists_execEncodeU32 value cursor capacity s
  obtain ⟨-, hsmall, -⟩ | ⟨-, hlarge, hfinish⟩ | ⟨hbusy, -⟩ := execEncodeU32_eq_next.mp ht
  · rw [wrapAddr_of_lt hcapacity] at hsmall
    exact absurd hcap (Nat.not_le.mpr hsmall)
  · have haccepted : acceptedOk (acceptRequest (Request.onWires s.aw ⟨value, cursor, capacity⟩) s) := by
      simp [acceptedOk, Request.onWires, hlarge]
    obtain ⟨d, hd, hzero, hread, hlen⟩ := finishCall_firstByte (by simpa using haw) haccepted hfinish
    simp only [acceptRequest_aw, acceptRequest_cur, acceptRequest_v, Request.onWires,
      wrapAddr_of_lt hcursor] at hzero hread hlen
    refine ⟨t, ht, fun hne => ⟨_, hread, asciiDigit_ne_zero hd ?_⟩, ?_⟩
    · exact fun h => hne (BitVec.eq_of_toNat_eq (hzero.mp h))
    · rintro rfl
      rw [hzero.mpr rfl] at hread
      exact ⟨hread, BitVec.eq_of_toNat_eq hlen⟩
  · exact absurd hidle hbusy

end Sys2Proof.Proofs
end

section
/-!
SUPPORT. The Digit-Pair Table: a word is the packing of its two characters, and the characters are those of the key
(R56, R110 to R113).
-/
namespace Sys2Proof.Machine

/-- A `PAIR_WORD` is `{b1, b0}`: its two character fields fill its 16 bits (R56). -/
theorem pairOnes_append_pairTens (w : BitVec 16) : pairOnes w ++ pairTens w = w :=
  (BitVec.extractLsb'_append_extractLsb'_eq_extractLsb' rfl).trans BitVec.extractLsb'_eq_self

/-- The character of a digit is its digit above `0x30` (R57). -/
theorem asciiDigit_toNat {d : Nat} (hd : d ≤ 9) : (asciiDigit d).toNat = 0x30 + d := by
  rw [asciiDigit, BitVec.toNat_ofNat, Nat.mod_eq_of_lt (by omega)]

/-- Keys above 99 have no entry (R56). -/
theorem pairRom_eq_none_iff (q : Key) : pairRom q = none ↔ 99 < q.toNat := by
  rw [← Option.not_isSome_iff_eq_none, pairRom_isSome_iff, Nat.not_lt, Nat.succ_le_iff]

end Sys2Proof.Machine

namespace Sys2Proof.Proofs
open Sys2Proof.Machine

/-- Settles O6: the characters of a populated key by `pairRom_asciiDigits`, their packing by `pairOnes_append_pairTens`. -/
theorem pairRomHoldsTheTwoCharacters : Obligations.PairRomHoldsTheTwoCharacters := by
  intro k
  refine ⟨fun hk => ?_, (pairRom_eq_none_iff k).mpr⟩
  obtain ⟨w, hw⟩ := Option.isSome_iff_exists.mp ((pairRom_isSome_iff k).mpr (Nat.lt_succ_of_le hk))
  obtain ⟨htens, hones⟩ := pairRom_asciiDigits hw
  refine ⟨w, hw, ?_, ?_, (pairOnes_append_pairTens w).symm⟩
  · rw [htens, asciiDigit_toNat (by omega)]
  · rw [hones, asciiDigit_toNat (by omega)]

end Sys2Proof.Proofs
end

section
/-!
SUPPORT. The steps of the sequencer: what a step runs, a latched request, the idle step, and the phase that follows each
micro-operation (R115 to R119).
-/
namespace Sys2Proof.Machine

/-! ### What a step runs -/

/-- Outside reset a step is the instruction its bytes decode to, and then the surroundings settle (R115). -/
theorem step_of_decode {s : State} {i : Instr} (hrst : s.portIn.rst = false) (hdecode : decode s.aw s.fetch = .ok i) :
    step s = andThen (exec i s) fun t => .next (s.settle t) := by
  simp only [step, hrst, hdecode, Bool.false_eq_true, ↓reduceIte]

/-- Unless an operation is asked for in `IDLE`, that instruction is the micro-operation of the phase (R54). -/
theorem step_of_phase {s : State} {i : Instr} (hrst : s.portIn.rst = false)
    (hports : ∀ w rest, s.inputs = .operation w :: rest → s.phase ≠ Phase.idle) (hphase : decodePhase s.phase = .ok i) :
    step s = andThen (exec i s) fun t => .next (s.settle t) :=
  step_of_decode hrst (by rw [fetch_eq_phaseByte hports, decode_phaseByte, hphase])

/-! ### A latched request -/

/-- A request with room for the digits is latched and the Predictor follows (R117). -/
theorem acceptRequest_of_ten_le {r : Request} {s : State} (h : 10 ≤ r.capacity) :
    acceptRequest r s = { s.beginStep with
      v := r.value, cur := r.cursor, cap := r.capacity, len := 0#4, st := 0#1, phase := Phase.predict } :=
  if_neg fun hsmall => absurd ((tooSmall_iff _).mp hsmall) (Nat.not_lt.mpr h)

/-- A request without room for the digits is latched and reported as `BufferTooSmall` (R117, R134). -/
theorem acceptRequest_of_lt_ten {r : Request} {s : State} (h : r.capacity < 10) :
    acceptRequest r s = { s.beginStep with
      v := r.value, cur := r.cursor, cap := r.capacity, len := 0#4, st := 1#1, phase := Phase.done } :=
  if_pos ((tooSmall_iff _).mpr h)

/-- The wires carry the operands of a well-formed request as they are (R51). -/
theorem onWires_of_wellFormed {aw : Nat} {r : Request}
    (h : (Instr.encodeU32 r.value r.cursor r.capacity).wellFormed aw = true) : Request.onWires aw r = r := by
  obtain ⟨hcursor, hcapacity⟩ := wellFormed_encodeU32_iff.mp h
  simp only [Request.onWires, wrapAddr_of_lt hcursor, wrapAddr_of_lt hcapacity]

/-! ### The idle step -/

/-- With no request on the ports, and none asked for as a whole, `IDLE` leads to the idle step (R116). -/
theorem step_of_idle {s : State} (hidle : s.phase = Phase.idle) (hrst : s.portIn.rst = false)
    (hports : ∀ w rest, s.inputs ≠ .operation w :: rest) (hrequest : s.portIn.req = none) :
    step s = .next (s.settle s.beginStep) := by
  have hnone : s.request = none := by rw [request_eq, hrequest, Option.map_none]
  have haccept : exec .accept s = .next s.beginStep := execAccept_eq_next.mpr (.inr ⟨hnone, rfl⟩)
  have hphase : decodePhase s.phase = .ok .accept := by rw [hidle]; rfl
  rw [step_of_phase hrst (fun w rest h => absurd h (hports w rest)) hphase, haccept, andThen_next]

/-- After the end of the list of inputs an idle step changes no register (R116). -/
theorem step_of_idle_unattended {s : State} (hidle : s.phase = Phase.idle) (hinputs : s.inputs = []) :
    step s = .next s.beginStep := by
  have hquiet := portIn_nil s hinputs
  rw [step_of_idle hidle (by rw [hquiet]; rfl) (by simp [hinputs]) (by rw [hquiet]; rfl)]
  simp [State.settle, State.inputsAfter, State.beginStep, hinputs, PortIn.quiet]

/-! ### The phase that follows -/

theorem execPredict_phase {s t : State} (h : execPredict s = .next t) : t.phase = Phase.scale := by
  obtain ⟨w, -, rfl⟩ := execPredict_eq_next.mp h
  rfl

theorem execScale_phase {s t : State} (h : execScale s = .next t) : t.phase = Phase.lead := by
  obtain ⟨-, -, p, -, rfl⟩ := execScale_eq_next.mp h
  rfl

theorem execLead_phase {s t : State} (h : execLead s = .next t) : t.phase = phaseFor s.rem.toNat := by
  obtain ⟨u, -, rfl⟩ := execLead_eq_next.mp h
  exact afterPhase_eq_phaseFor _

theorem execPair_phase {s t : State} (h : execPair s = .next t) : t.phase = phaseFor (s.rem.toNat - 2) := by
  obtain ⟨htwo, p, -, u, -, rfl⟩ := execPair_eq_next.mp h
  rw [← toNat_sub_two htwo]
  exact afterPhase_eq_phaseFor _

theorem execLast_phase {s t : State} (h : execLast s = .next t) : t.phase = Phase.done := by
  obtain ⟨-, p, -, u, -, rfl⟩ := execLast_eq_next.mp h
  rfl

theorem execDone_phase {s t : State} (h : execDone s = .next t) : t.phase = Phase.idle := by
  obtain ⟨-, rfl⟩ := execDone_eq_next.mp h
  rfl

end Sys2Proof.Machine

namespace Sys2Proof.Proofs
open Sys2Proof.Machine

/-- Settles O41: `step_of_decode`, with the settling written out. -/
theorem stepRunsTheDecodedInstruction : Obligations.StepRunsTheDecodedInstruction :=
  fun _ _ hrst hdecode => step_of_decode hrst hdecode

/-- Settles O28: the two outcomes of a latched request. -/
theorem acceptLatchesAndChecks : Obligations.AcceptLatchesAndChecks := by
  intro s r hrequest
  have haccept : exec .accept s = .next (acceptRequest r s) := execAccept_eq_next.mpr (.inl ⟨r, hrequest, rfl⟩)
  rw [haccept]
  constructor
  · intro hcap
    rw [acceptRequest_of_ten_le hcap]
    rfl
  · intro hcap
    rw [acceptRequest_of_lt_ten hcap]
    rfl

/-- Settles O31: up to ten bytes `DONE` ends the call. -/
theorem donePresentsTheResponse : Obligations.DonePresentsTheResponse :=
  fun _ hlen => execDone_eq_next.mpr ⟨hlen, rfl⟩

/-- Settles O35: the request is latched as it is, and `DONE` follows at once. -/
theorem encodeReportsBufferTooSmall : Obligations.EncodeReportsBufferTooSmall := by
  intro s value cursor capacity hidle hwf hcap
  obtain ⟨-, hcapacity⟩ := wellFormed_encodeU32_iff.mp hwf
  have hsmall : wrapAddr s.aw capacity < 10 := by rwa [wrapAddr_of_lt hcapacity]
  refine execEncodeU32_eq_next.mpr (.inl ⟨hidle, hsmall, ?_⟩)
  rw [onWires_of_wellFormed (r := ⟨value, cursor, capacity⟩) hwf, acceptRequest_of_lt_ten hcap]
  simp only [endCall, State.beginStep, hidle]

/-- Settles O30: one idle step, and by induction any number of them after the end of the inputs. -/
theorem idleChangesNothing : Obligations.IdleChangesNothing := by
  intro s rest hidle
  constructor
  · intro hinputs
    have hports := portIn_ports s _ rest hinputs
    rw [step_of_idle hidle (by rw [hports]) (by simp [hinputs]) (by rw [hports])]
    exact ⟨by simp [State.settle, State.inputsAfter, State.beginStep, hports, hinputs], by simp [State.reqReady, hidle]⟩
  · intro hinputs k
    induction k generalizing s with
    | zero => rw [run_succ_of_step (step_of_idle_unattended hidle hinputs)]; rfl
    | succ k ih =>
      have hfree : s.free + 1 + (k + 1) = s.free + (k + 1 + 1) := by omega
      rw [run_succ_of_step (step_of_idle_unattended hidle hinputs), ih s.beginStep hidle hinputs, beginStep_free, hfree]
      rfl

/-- Settles O32: each phase code selects its micro-operation, and each of those leads to its successors. -/
theorem phaseFollowsTheSuccessorRelation : Obligations.PhaseFollowsTheSuccessorRelation := by
  intro s t hrst hports hstep
  obtain ⟨hreset, -⟩ | ⟨-, i, u, hdecode, hexec, rfl⟩ := step_eq_next.mp hstep
  · exact absurd (hrst.symm.trans hreset) (by decide)
  rw [fetch_eq_phaseByte hports, decode_phaseByte] at hdecode
  rw [settle_phase]
  rcases decodePhase_cases s.phase with ⟨hp, hi⟩ | ⟨hp, hi⟩ | ⟨hp, hi⟩ | ⟨hp, hi⟩ | ⟨hp, hi⟩ | ⟨hp, hi⟩ | ⟨hp, hi⟩ |
    ⟨-, hi⟩ <;> cases hi.symm.trans hdecode
  · obtain ⟨r, hrequest, rfl⟩ | ⟨hnone, rfl⟩ := execAccept_eq_next.mp hexec
    · by_cases hcap : r.capacity < 10
      · exact .inr (.inr (.inl ⟨r, hp, hrequest, hcap, by simp [hcap]⟩))
      · exact .inr (.inl ⟨r, hp, hrequest, Nat.le_of_not_lt hcap, by simp [hcap]⟩)
    · exact .inl ⟨hp, hnone, hp⟩
  · simp [hp, execPredict_phase hexec]
  · simp [hp, execScale_phase hexec]
  · simp [hp, execLead_phase hexec]
  · simp [hp, execPair_phase hexec]
  · simp [hp, execLast_phase hexec]
  · simp [hp, execDone_phase hexec]

end Sys2Proof.Proofs
end

section
/-!
SUPPORT. The decimal form by its digits, most significant first, and the datapath as one function (R8, R98, R122).
-/
namespace Sys2Proof.Machine

/-! ### The digits of a number -/

/-- The characters of the last `r` decimal digits of `v`, most significant first (R8, R57). -/
def lowDigits (v : Nat) : Nat → List Byte
  | 0 => []
  | r + 1 => asciiDigit (v / 10 ^ r % 10) :: lowDigits v r

@[simp] theorem lowDigits_zero (v : Nat) : lowDigits v 0 = [] := rfl

theorem lowDigits_succ (v r : Nat) : lowDigits v (r + 1) = asciiDigit (v / 10 ^ r % 10) :: lowDigits v r := rfl

/-- Two digits at once: those of the number below 100 that the last `r` digits leave (R94). -/
theorem lowDigits_add_two (v r : Nat) :
    lowDigits v (r + 2) =
      asciiDigit (v / 10 ^ r % 100 / 10) :: asciiDigit (v / 10 ^ r % 100 % 10) :: lowDigits v r := by
  have htens : v / 10 ^ r % 100 / 10 = v / 10 ^ (r + 1) % 10 := by
    rw [pow_succ, ← Nat.div_div_eq_div_mul]
    omega
  have hones : v / 10 ^ r % 100 % 10 = v / 10 ^ r % 10 := Nat.mod_mod_of_dvd _ (by decide)
  rw [htens, hones]
  rfl

/-- The least significant digit stands last. -/
theorem lowDigits_succ_eq_append (v r : Nat) : lowDigits v (r + 1) = lowDigits (v / 10) r ++ [asciiDigit (v % 10)] := by
  induction r with
  | zero => simp [lowDigits]
  | succ r ih =>
    rw [lowDigits_succ, ih, lowDigits_succ (v / 10) r, Nat.div_div_eq_div_mul, ← pow_succ', List.cons_append]

/-- The digits of `v`, of which `Nat.digits` gives the least significant first. -/
theorem lowDigits_length_digits (v : Nat) :
    lowDigits v (Nat.digits 10 v).length = (Nat.digits 10 v).reverse.map asciiDigit := by
  induction v using Nat.strongRecOn with
  | _ v ih =>
    rcases Nat.eq_zero_or_pos v with rfl | hpos
    · rfl
    · rw [Nat.digits_def' (by decide) hpos, List.length_cons, lowDigits_succ_eq_append,
        ih (v / 10) (Nat.div_lt_self hpos (by decide)), List.reverse_cons, List.map_append]
      rfl

/-- `dec(v)` is the string of all the digits of `v`, and "0" for 0 (R8). -/
theorem dec_eq_lowDigits (v : Nat) : dec v = lowDigits v (ndigits v) := by
  unfold dec ndigits
  split
  · next hzero => rw [hzero]; rfl
  · next hpos => rw [← lowDigits_length_digits, Nat.length_digits _ _ (by decide) hpos]

/-! ### The digits of the datapath -/

/-- The characters that the lead step emits for `q` below 100: two from 10 on, else one (R91). -/
def leadBytes (q : Nat) : List Byte := if 10 ≤ q then [asciiDigit (q / 10), asciiDigit (q % 10)] else [asciiDigit q]

/-- With the Scale Entry of `v`, `dec(v)` is what the lead step emits and then the digits that remain (R79, R97). -/
theorem EntryFacts.dec_eq {v nd pre : Nat} (h : EntryFacts v nd pre) :
    dec v = leadBytes (v / 10 ^ (nd - 2)) ++ lowDigits v (nd - 2) := by
  have hlt := h.value_lt
  rw [dec_eq_lowDigits, h.ndigits_eq, leadBytes]
  generalize nd - 2 = f at *
  have hbranch : 10 ≤ v / 10 ^ f ↔ 10 ^ (f + 1) ≤ v := by
    rw [Nat.le_div_iff_mul_le (by positivity), pow_succ']
  simp only [hbranch]
  split
  · have hq : v / 10 ^ f < 100 := Nat.div_lt_of_lt_mul (by rwa [pow_add] at hlt)
    rw [Nat.add_comm 2 f, lowDigits_add_two, Nat.mod_eq_of_lt hq]
    rfl
  · next hsmall =>
    have hq : v / 10 ^ f < 10 := Nat.lt_of_not_le (mt hbranch.mp hsmall)
    rw [Nat.add_comm 1 f, lowDigits_succ, Nat.mod_eq_of_lt hq]
    rfl

/-- The next `k` of the outstanding digits stand in front of the point after a multiplication by `10^k` (R92, R93). -/
theorem carriesDigits.mul_pow_div_unit {v r k x : Nat} (h : carriesDigits v (r + k) x) :
    x * 10 ^ k / Config.unit = v / 10 ^ r % 10 ^ k := by
  rw [(carriesDigits_iff.mp h).shift.div_unit, pow_add, Nat.mod_mul_right_div_self]

/-- A digit as a key has its own character (R57, R94). -/
theorem digitChar_ofNat {q : Nat} (hq : q < 10) : digitChar (BitVec.ofNat 7 q) = asciiDigit q := by
  rw [digitChar_eq, BitVec.toNat_ofNat, Nat.mod_eq_of_lt (by omega)]
  rfl

/-- A number below 100 as a key has the word of its two characters (R111). -/
theorem exists_pairRom_ofNat {q : Nat} (hq : q < 100) :
    ∃ w, pairRom (BitVec.ofNat 7 q) = some w ∧ pairTens w = asciiDigit (q / 10) ∧ pairOnes w = asciiDigit (q % 10) := by
  have hkey : (BitVec.ofNat 7 q).toNat = q := by rw [BitVec.toNat_ofNat, Nat.mod_eq_of_lt (by omega)]
  obtain ⟨w, hw⟩ := Option.isSome_iff_exists.mp ((pairRom_isSome_iff _).mpr (hkey.symm ▸ hq))
  have hchars := pairRom_asciiDigits hw
  rw [hkey] at hchars
  exact ⟨w, hw, hchars⟩

/-- The loop and the trailing step give the digits that the fraction carries (R98, R122). -/
theorem extractDigits_eq_lowDigits {v r x : Nat} (h : carriesDigits v r x) : extractDigits r x = lowDigits v r := by
  induction r using Nat.twoStepInduction generalizing x with
  | zero => rfl
  | one =>
    have hdigit : x * 10 / Config.unit = v / 10 ^ 0 % 10 := h.mul_pow_div_unit (r := 0) (k := 1)
    rw [extractDigits, hdigit, digitChar_ofNat (Nat.mod_lt _ (by decide))]
    rfl
  | more r ih _ =>
    have hpair : x * 100 / Config.unit = v / 10 ^ r % 100 := h.mul_pow_div_unit (k := 2)
    have hrest : extractDigits r (x * 100 % Config.unit) = lowDigits v r := ih (h.step (k := 2))
    obtain ⟨w, hw, htens, hones⟩ := exists_pairRom_ofNat (q := v / 10 ^ r % 100) (Nat.mod_lt _ (by decide))
    rw [extractDigits, hpair, hw, hrest, lowDigits_add_two, ← htens, ← hones]

/-- The datapath on the corrected product: its integer part as two characters or one, then the digits of its fraction
(R122). -/
theorem encodeDigits_eq {v : Value} {w : BitVec 61} (hw : scaleRom (order v) = some w)
    (hlt : scaledSum v.toNat (scalePre w).toNat < 100 * Config.unit) :
    encodeDigits v =
      leadBytes (scaledSum v.toNat (scalePre w).toNat / Config.unit) ++
        extractDigits (rem0 (scaleNd w)).toNat (scaledSum v.toNat (scalePre w).toNat % Config.unit) := by
  have hq : scaledSum v.toNat (scalePre w).toNat / Config.unit < 100 := Nat.div_lt_of_lt_mul (by rwa [Nat.mul_comm])
  have hbranch : ∀ x, Config.tens ≤ x ↔ 10 ≤ x / Config.unit := fun x => (Nat.le_div_iff_mul_le (by decide)).symm
  simp only [encodeDigits, hw, plusOne_toNat]
  rw [← scaledSum, leadBytes]
  simp only [hbranch]
  split
  · obtain ⟨p, hp, htens, hones⟩ := exists_pairRom_ofNat hq
    rw [hp, htens.symm, hones.symm]
    rfl
  · next hsmall =>
    rw [digitChar_ofNat (Nat.lt_of_not_le hsmall)]
    rfl

end Sys2Proof.Machine

namespace Sys2Proof.Proofs
open Sys2Proof.Machine

/-- Settles O38: the corrected product holds the Value's first digits before the point, and its fraction carries the
others (R85). -/
theorem datapathFunctionIsDecimal : Obligations.DatapathFunctionIsDecimal := by
  intro v
  obtain ⟨w, hw⟩ := exists_scaleRom (order_toNat_le v)
  have hfacts := isEntry.facts ⟨w, hw, rfl, rfl⟩
  have hscaled := hfacts.scaledOk_scaledSum
  rw [encodeDigits_eq hw hfacts.scaledSum_lt, hscaled.div_unit, rem0_toNat,
    extractDigits_eq_lowDigits hscaled.carriesDigits_mod, hfacts.dec_eq]

end Sys2Proof.Proofs
end

section
/-!
SUPPORT. The operation as a whole: each of its micro-operations appends characters at the cursor, and all of them together
are the decimal form (R96, R121, R123).
-/
namespace Sys2Proof.Machine

/-! ### Consecutive bytes -/

/-- Bytes written one after the other from an address on, modulo `2^AW` (R36, R121). -/
def writeBytes (aw : Nat) (m : Memory) (a : Nat) : List Byte → Memory
  | [] => m
  | b :: bs => writeBytes aw (m.write (wrapAddr aw a) b) (a + 1) bs

@[simp] theorem writeBytes_nil (aw : Nat) (m : Memory) (a : Nat) : writeBytes aw m a [] = m := rfl

theorem writeBytes_cons (aw : Nat) (m : Memory) (a : Nat) (b : Byte) (bs : List Byte) :
    writeBytes aw m a (b :: bs) = writeBytes aw (m.write (wrapAddr aw a) b) (a + 1) bs := rfl

theorem writeBytes_append (aw : Nat) (m : Memory) (a : Nat) (bs cs : List Byte) :
    writeBytes aw m a (bs ++ cs) = writeBytes aw (writeBytes aw m a bs) (a + bs.length) cs := by
  induction bs generalizing m a with
  | nil => rfl
  | cons b bs ih =>
    rw [List.cons_append, writeBytes_cons, ih, writeBytes_cons, List.length_cons, Nat.add_right_comm, Nat.add_assoc]

/-- Only the address on the wires matters. -/
theorem writeBytes_congr {aw a a' : Nat} (h : wrapAddr aw a = wrapAddr aw a') (m : Memory) (bs : List Byte) :
    writeBytes aw m a bs = writeBytes aw m a' bs := by
  induction bs generalizing m a a' with
  | nil => rfl
  | cons b bs ih =>
    rw [writeBytes_cons, writeBytes_cons, h]
    exact ih (by rw [← wrapAddr_add, h, wrapAddr_add]) _

/-- Every byte outside the bytes written reads as before (R121). -/
theorem writeBytes_read_of_ne {aw a x : Nat} {bs : List Byte} (m : Memory)
    (h : ∀ i < bs.length, x ≠ wrapAddr aw (a + i)) : (writeBytes aw m a bs).read x = m.read x := by
  induction bs generalizing m a with
  | nil => rfl
  | cons b bs ih =>
    have hhead : x ≠ wrapAddr aw a := h 0 (Nat.succ_pos _)
    have htail : ∀ i < bs.length, x ≠ wrapAddr aw (a + 1 + i) := fun i hi => by
      rw [Nat.add_assoc, Nat.add_comm 1]
      exact h (i + 1) (Nat.succ_lt_succ hi)
    rw [writeBytes_cons, ih _ htail, Memory.read_write_of_ne _ _ hhead]

/-- Up to sixteen bytes are read back: they do not reach round to the first, because `AW >= 4` (R7, R121). -/
theorem memRead_writeBytes {aw : Nat} (haw : awLegal aw = true) {bs : List Byte} (hlen : bs.length ≤ 16) (m : Memory)
    (a : Nat) : memRead aw (writeBytes aw m a bs) a bs.length = bs.map some := by
  induction bs generalizing m a with
  | nil => rfl
  | cons b bs ih =>
    rw [List.length_cons] at hlen
    have hne : ∀ i < bs.length, wrapAddr aw a ≠ wrapAddr aw (a + 1 + i) := fun i hi => by
      rw [Nat.add_assoc]
      exact wrapAddr_ne haw a (i := 0) (by decide) (by omega) (by omega)
    rw [List.length_cons, memRead_succ, writeBytes_cons, writeBytes_read_of_ne _ hne, Memory.read_write_same,
      ih (by omega), List.map_cons]

/-- The same bytes written to two memories: each address keeps its byte in both, or reads alike afterwards (R123). -/
theorem writeBytes_read_kept_or_alike (aw : Nat) (m n : Memory) (a : Nat) (bs : List Byte) (x : Nat) :
    ((writeBytes aw m a bs).read x = m.read x ∧ (writeBytes aw n a bs).read x = n.read x) ∨
      (writeBytes aw m a bs).read x = (writeBytes aw n a bs).read x := by
  induction bs generalizing m n a with
  | nil => exact .inl ⟨rfl, rfl⟩
  | cons b bs ih =>
    have hrest := ih (m.write (wrapAddr aw a) b) (n.write (wrapAddr aw a) b) (a + 1)
    simp only [Memory.read_write] at hrest
    rw [writeBytes_cons, writeBytes_cons]
    split at hrest
    · exact .inr (hrest.elim (fun h => h.1.trans h.2.symm) id)
    · exact hrest

/-! ### Appending to the bytes of a call -/

/-- Going from `s` to `t` writes `bytes` at the cursor and moves the cursor and `LEN` past them; the operands, the status
and the surroundings are as before (R33, R36, R96). -/
structure Appends (bytes : List Byte) (s t : State) : Prop where
  aw_eq : t.aw = s.aw
  inputs_eq : t.inputs = s.inputs
  v_eq : t.v = s.v
  cap_eq : t.cap = s.cap
  st_eq : t.st = s.st
  len_eq : t.len.toNat = s.len.toNat + bytes.length
  cur_eq : wrapAddr s.aw t.cur = wrapAddr s.aw (s.cur + bytes.length)
  out_eq : t.out = writeBytes s.aw s.out s.cur bytes

theorem Appends.refl (s : State) : Appends [] s s := ⟨rfl, rfl, rfl, rfl, rfl, rfl, rfl, rfl⟩

theorem Appends.trans {bs cs : List Byte} {s t u : State} (hst : Appends bs s t) (htu : Appends cs t u) :
    Appends (bs ++ cs) s u where
  aw_eq := htu.aw_eq.trans hst.aw_eq
  inputs_eq := htu.inputs_eq.trans hst.inputs_eq
  v_eq := htu.v_eq.trans hst.v_eq
  cap_eq := htu.cap_eq.trans hst.cap_eq
  st_eq := htu.st_eq.trans hst.st_eq
  len_eq := by rw [htu.len_eq, hst.len_eq, List.length_append, Nat.add_assoc]
  cur_eq := by
    rw [← hst.aw_eq, htu.cur_eq, hst.aw_eq, ← wrapAddr_add, hst.cur_eq, wrapAddr_add, List.length_append, Nat.add_assoc]
  out_eq := by rw [htu.out_eq, hst.aw_eq, hst.out_eq, writeBytes_append, writeBytes_congr hst.cur_eq]

theorem execPredict_appends {s t : State} (h : execPredict s = .next t) : Appends [] s t := by
  obtain ⟨w, -, rfl⟩ := execPredict_eq_next.mp h
  exact ⟨rfl, rfl, rfl, rfl, rfl, rfl, rfl, rfl⟩

theorem execScale_appends {s t : State} (h : execScale s = .next t) : Appends [] s t := by
  obtain ⟨-, -, p, -, rfl⟩ := execScale_eq_next.mp h
  exact ⟨rfl, rfl, rfl, rfl, rfl, rfl, rfl, rfl⟩

theorem execDone_appends {s t : State} (h : execDone s = .next t) : Appends [] s t := by
  obtain ⟨-, rfl⟩ := execDone_eq_next.mp h
  exact ⟨rfl, rfl, rfl, rfl, rfl, rfl, rfl, rfl⟩

/-- `LEAD` appends the characters of the integer part of the accumulator (R91, R97). -/
theorem execLead_appends {s t : State} (hleading : leadingOk s) (h : execLead s = .next t) :
    Appends (leadBytes (s.frac.toNat / Config.unit)) s t ∧ t.rem = s.rem := by
  obtain ⟨⟨-, hlen, -⟩, hpredicted, hrem, hscaled⟩ := hleading
  rw [hrem, rem0_toNat] at hscaled
  have hfrac : s.frac.toNat < 100 * Config.unit := hpredicted.2.facts.lt_of_scaledOk hscaled
  have hbranch : Config.tens ≤ s.frac.toNat ↔ 10 ≤ s.frac.toNat / Config.unit :=
    (Nat.le_div_iff_mul_le (by decide)).symm
  have hzero : s.len.toNat = 0 := by rw [hlen]; rfl
  by_cases htens : Config.tens ≤ s.frac.toNat
  · obtain rfl := Host.Outcome.next.inj ((Proofs.leadEmitsTwoDigits s htens hfrac (by omega)).symm.trans h)
    rw [leadBytes, if_pos (hbranch.mp htens)]
    exact ⟨⟨rfl, rfl, rfl, rfl, rfl, toNat_ofNat_len (by omega), wrapAddr_idem _ _, rfl⟩, rfl⟩
  · obtain ⟨lane1, hemit⟩ := Proofs.leadEmitsOneDigit s (Nat.lt_of_not_le htens) (by omega)
    obtain rfl := Host.Outcome.next.inj (hemit.symm.trans h)
    rw [leadBytes, if_neg (mt hbranch.mpr htens)]
    exact ⟨⟨rfl, rfl, rfl, rfl, rfl, toNat_ofNat_len (by omega), wrapAddr_idem _ _, rfl⟩, rfl⟩

/-- `PAIR` appends the first two of the outstanding digits (R92, R98). -/
theorem execPair_appends {s t : State} (hextracting : extractingOk s) (htwo : 2 ≤ s.rem.toNat)
    (h : execPair s = .next t) :
    ∃ bytes, Appends bytes s t ∧ bytes ++ lowDigits s.v.toNat t.rem.toNat = lowDigits s.v.toNat s.rem.toNat := by
  have hcount := hextracting.len_add_rem_le
  obtain ⟨-, -, -, hfrac, -, -, hcarries⟩ := hextracting
  obtain ⟨r, hr⟩ := Nat.exists_eq_add_of_le' htwo
  have hpair : s.frac.toNat * 100 / Config.unit = s.v.toNat / 10 ^ r % 100 := (hr ▸ hcarries).mul_pow_div_unit (k := 2)
  obtain rfl := Host.Outcome.next.inj ((Proofs.pairEmitsTwoDigits s htwo hfrac (by omega)).symm.trans h)
  refine ⟨[asciiDigit (s.frac.toNat * 100 / Config.unit / 10), asciiDigit (s.frac.toNat * 100 / Config.unit % 10)],
    ⟨rfl, rfl, rfl, rfl, rfl, toNat_ofNat_len (by omega), wrapAddr_idem _ _, rfl⟩, ?_⟩
  have hrem : (BitVec.ofNat 4 (s.rem.toNat - 2)).toNat = r := by rw [toNat_ofNat_len (by omega), hr, Nat.add_sub_cancel]
  rw [hrem, hr, lowDigits_add_two, hpair]
  rfl

/-- `LAST` appends the last outstanding digit (R93, R98). -/
theorem execLast_appends {s t : State} (hextracting : extractingOk s) (hone : s.rem.toNat = 1)
    (h : execLast s = .next t) : Appends (lowDigits s.v.toNat 1) s t ∧ t.rem = 0#4 := by
  have hcount := hextracting.len_add_rem_le
  obtain ⟨-, -, -, hfrac, -, -, hcarries⟩ := hextracting
  have hdigit : s.frac.toNat * 10 / Config.unit = s.v.toNat / 10 ^ 0 % 10 :=
    (hone ▸ hcarries).mul_pow_div_unit (r := 0) (k := 1)
  obtain ⟨lane1, hemit⟩ := Proofs.lastEmitsOneDigit s hone hfrac (by omega)
  obtain rfl := Host.Outcome.next.inj (hemit.symm.trans h)
  rw [lowDigits_succ, ← hdigit]
  exact ⟨⟨rfl, rfl, rfl, rfl, rfl, toNat_ofNat_len (by omega), wrapAddr_idem _ _, rfl⟩, rfl⟩

/-! ### The whole call -/

theorem betweenDigits.extractingOk {s : State} (h : betweenDigits s) (hpos : 1 ≤ s.rem.toNat) :
    Machine.extractingOk s := by
  obtain ⟨-, hextracting⟩ | ⟨-, hextracting⟩ | ⟨hzero, -⟩ := h.cases
  · exact hextracting
  · exact hextracting
  · omega

/-- The two-digit loop appends the digits it takes off the outstanding ones (R92, R119). -/
theorem betweenDigits.repeatPair_appends {n : Nat} {s t : State} (h : betweenDigits s) (hn : 2 * n ≤ s.rem.toNat)
    (hpairs : repeatPair n s = .next t) :
    ∃ bytes, Appends bytes s t ∧ bytes ++ lowDigits s.v.toNat t.rem.toNat = lowDigits s.v.toNat s.rem.toNat ∧
      betweenDigits t ∧ t.rem.toNat + 2 * n = s.rem.toNat := by
  induction n generalizing s with
  | zero =>
    cases hpairs
    exact ⟨[], .refl _, rfl, h, rfl⟩
  | succ n ih =>
    obtain ⟨u, hu, hrest⟩ := repeatPair_succ_eq_next.mp hpairs
    obtain ⟨u', hu', hbetween, hrem⟩ := h.exists_execPair (by omega)
    obtain rfl := Host.Outcome.next.inj (hu'.symm.trans hu)
    obtain ⟨bs, happends, hdigits⟩ := execPair_appends (h.extractingOk (by omega)) (by omega) hu
    obtain ⟨cs, happends', hdigits', hend, hcount⟩ := ih hbetween (by omega) hrest
    rw [happends.v_eq] at hdigits'
    exact ⟨bs ++ cs, happends.trans happends', by rw [List.append_assoc, hdigits', hdigits], hend, by omega⟩

/-- With at most one digit outstanding the call appends it, if there is one (R93, R119). -/
theorem betweenDigits.last_appends {s t : State} (h : betweenDigits s) (hle : s.rem.toNat ≤ 1)
    (hlast : (if s.rem.toNat = 1 then execLast s else .next s) = .next t) :
    Appends (lowDigits s.v.toNat s.rem.toNat) s t ∧ t.rem = 0#4 := by
  split at hlast
  · next hone =>
    rw [hone]
    exact execLast_appends (h.extractingOk (by omega)) hone hlast
  · have hzero : s.rem.toNat = 0 := by omega
    cases hlast
    rw [hzero]
    exact ⟨.refl _, BitVec.eq_of_toNat_eq hzero⟩

/-- From the lead step on a call appends the decimal form of its Value (R96 to R98). -/
theorem appends_dec_of_extraction {scaled led paired ended : State} (hleading : leadingOk scaled)
    (hlead : execLead scaled = .next led) (hpairs : repeatPair (led.rem.toNat / 2) led = .next paired)
    (hlast : (if paired.rem.toNat = 1 then execLast paired else .next paired) = .next ended) :
    Appends (dec scaled.v.toNat) scaled ended ∧ ended.rem = 0#4 := by
  obtain ⟨hled, hrem⟩ := execLead_appends hleading hlead
  obtain ⟨led', hlead', hbetween⟩ := exists_execLead_betweenDigits hleading
  obtain rfl := Host.Outcome.next.inj (hlead'.symm.trans hlead)
  obtain ⟨bytes, hpaired, hdigits, hrest, hcount⟩ := hbetween.repeatPair_appends (by omega) hpairs
  obtain ⟨hended, hzero⟩ := hrest.last_appends (by omega) hlast
  obtain ⟨-, hpredicted, hentry, hscaled⟩ := hleading
  rw [hpaired.v_eq] at hended
  have hall := hled.trans (hpaired.trans hended)
  rw [hdigits, hled.v_eq, hrem, hscaled.div_unit, hentry, rem0_toNat, ← hpredicted.2.facts.dec_eq] at hall
  exact ⟨hall, hzero⟩

/-- An accepted call appends the decimal form of its Value and ends with the response (R118, R121). -/
theorem finishCall_appends_dec {s t : State} (haccepted : acceptedOk s) (h : finishCall s = .next t) :
    Appends (dec s.v.toNat) s t ∧ t.rem = 0#4 ∧ t.wr = none ∧ t.phase = Phase.idle ∧
      t.rsp = some ⟨t.cur, t.len, t.st⟩ := by
  obtain ⟨predicted, scaled, led, paired, ended, hpredict, hscale, hlead, hpairs, hlast, hdone⟩ :=
    finishCall_eq_next.mp h
  have hleading : leadingOk scaled := by
    obtain ⟨w, hw, rfl⟩ := execPredict_eq_next.mp hpredict
    exact leadingOk_of_execScale hscale haccepted ⟨rfl, w, hw, rfl, rfl⟩
  have hscaled := (execPredict_appends hpredict).trans (execScale_appends hscale)
  obtain ⟨hended, hzero⟩ := appends_dec_of_extraction hleading hlead hpairs hlast
  have hall := hscaled.trans (hended.trans (execDone_appends hdone))
  rw [hscaled.v_eq, List.append_nil, List.append_nil, List.nil_append] at hall
  obtain ⟨-, rfl⟩ := execDone_eq_next.mp hdone
  exact ⟨hall, hzero, rfl, rfl, rfl⟩

/-- What a call with room for the digits leaves, by its operands on the wires (R118, R121). -/
structure EncodeResult (r : Request) (s t : State) : Prop where
  out_eq : t.out = writeBytes s.aw s.out r.cursor (dec r.value.toNat)
  cur_eq : t.cur = wrapAddr s.aw (r.cursor + ndigits r.value.toNat)
  len_eq : t.len = BitVec.ofNat 4 (ndigits r.value.toNat)
  st_eq : t.st = 0#1
  rsp_eq : t.rsp = some ⟨t.cur, t.len, t.st⟩
  v_eq : t.v = r.value
  cap_eq : t.cap = r.capacity
  rem_eq : t.rem = 0#4
  wr_eq : t.wr = none
  phase_eq : t.phase = Phase.idle
  aw_eq : t.aw = s.aw
  inputs_eq : t.inputs = s.inputs

theorem encodeResult_of_finishCall {r : Request} {s t : State} (hcap : 10 ≤ r.capacity)
    (hcursor : fitsAddr s.aw r.cursor = true) (h : finishCall (acceptRequest r s) = .next t) : EncodeResult r s t := by
  have haccepted : acceptedOk (acceptRequest r s) := by simp [acceptedOk, hcap]
  have hfits : fitsAddr s.aw t.cur = true := by simpa [hcursor] using (finishCall_keepsSpace h).cur
  obtain ⟨⟨haw, hinputs, hv, hcapKept, hst, hlen, hcur, hout⟩, hrem, hwr, hphase, hrsp⟩ :=
    finishCall_appends_dec haccepted h
  simp only [acceptRequest_aw, acceptRequest_inputs, acceptRequest_v, acceptRequest_cap, acceptRequest_st,
    acceptRequest_len, acceptRequest_cur, acceptRequest_out, length_dec, tooSmall_eq_false.mpr hcap,
    wrapAddr_of_lt (of_decide_eq_true hfits)] at haw hinputs hv hcapKept hst hlen hcur hout
  have hlenEq : t.len = BitVec.ofNat 4 (ndigits r.value.toNat) := by
    apply BitVec.eq_of_toNat_eq
    rw [toNat_ofNat_len (ndigits_le_maxDigits _), hlen]
    exact Nat.zero_add _
  exact ⟨hout, hcur, hlenEq, hst, hrsp, hv, hcapKept, hrem, hwr, hphase, haw, hinputs⟩

/-- `ENCODE_U32` with room for the digits is carried out from `IDLE` (R121). -/
theorem exists_encodeResult {s : State} {value : Value} {cursor capacity : Nat} (hidle : s.phase = Phase.idle)
    (hcap : 10 ≤ wrapAddr s.aw capacity) :
    ∃ t, exec (.encodeU32 value cursor capacity) s = .next t ∧
      EncodeResult (Request.onWires s.aw ⟨value, cursor, capacity⟩) s t := by
  obtain ⟨t, ht⟩ := exists_execEncodeU32 value cursor capacity s
  obtain ⟨-, hsmall, -⟩ | ⟨-, -, hfinish⟩ | ⟨hbusy, -⟩ := execEncodeU32_eq_next.mp ht
  · exact absurd hcap (Nat.not_le.mpr hsmall)
  · exact ⟨t, ht, encodeResult_of_finishCall hcap (fitsAddr_wrapAddr _ _) hfinish⟩
  · exact absurd hidle hbusy

end Sys2Proof.Machine

namespace Sys2Proof.Proofs
open Sys2Proof.Machine

/-- Settles O34: the bytes written are those of `dec(value)` (`encodeResult_of_finishCall`), at most ten, so they are read
back. -/
theorem encodeWritesTheDecimalForm : Obligations.EncodeWritesTheDecimalForm := by
  intro s value cursor capacity haw hidle hwf hcap
  obtain ⟨-, hcapacity⟩ := wellFormed_encodeU32_iff.mp hwf
  obtain ⟨t, ht, hresult⟩ :=
    exists_encodeResult (value := value) (cursor := cursor) hidle ((wrapAddr_of_lt hcapacity).symm ▸ hcap)
  rw [onWires_of_wellFormed (r := ⟨value, cursor, capacity⟩) hwf] at hresult
  obtain ⟨hout, hcur, hlen, hst, hrsp, hv, hcapKept, hrem, hwr, hphase, hawKept, hinputs⟩ := hresult
  have hten := ndigits_le_maxDigits value
  refine ⟨t, ht, ?_, fun a ha => ?_, ?_, hwr, hphase, hv, hcapKept, hcur, ?_, hst, hrem, hawKept, hinputs⟩
  · rw [hawKept, hout, ← length_dec]
    exact memRead_writeBytes haw ((length_dec _).trans_le (hten.trans (by decide))) _ _
  · rw [hout]
    exact writeBytes_read_of_ne _ (by rwa [length_dec])
  · rw [hrsp, hcur, hlen, hst]
    rfl
  · rw [hlen, toNat_ofNat_len hten]

/-- Settles O39: the response and the bytes written are given by the operands on the wires, in both outcomes of the
capacity check. -/
theorem encodeDependsOnItsOperandsOnly : Obligations.EncodeDependsOnItsOperandsOnly := by
  intro s₁ s₂ value cursor capacity _ haw hidle₁ hidle₂
  by_cases hcap : wrapAddr s₁.aw capacity < 10
  · have hcap₂ : wrapAddr s₂.aw capacity < 10 := by rwa [haw]
    refine ⟨_, _, execEncodeU32_eq_next.mpr (.inl ⟨hidle₁, hcap, rfl⟩),
      execEncodeU32_eq_next.mpr (.inl ⟨hidle₂, hcap₂, rfl⟩), ?_, fun a => .inl ?_⟩
    · simp [haw]
    · simp
  · have hlarge := Nat.le_of_not_lt hcap
    obtain ⟨t₁, ht₁, hresult₁⟩ := exists_encodeResult (value := value) (cursor := cursor) hidle₁ hlarge
    obtain ⟨t₂, ht₂, hresult₂⟩ := exists_encodeResult (value := value) (cursor := cursor) hidle₂ (haw.symm ▸ hlarge)
    rw [haw] at hresult₂
    refine ⟨t₁, t₂, ht₁, ht₂, ?_, fun a => ?_⟩
    · rw [hresult₁.rsp_eq, hresult₂.rsp_eq, hresult₁.cur_eq, hresult₂.cur_eq, hresult₁.len_eq, hresult₂.len_eq,
        hresult₁.st_eq, hresult₂.st_eq, haw]
    · rw [hresult₁.out_eq, hresult₂.out_eq, haw]
      exact writeBytes_read_kept_or_alike _ _ _ _ _ _

end Sys2Proof.Proofs
end

section
/-!
SUPPORT. The operation and the run of its steps: with nothing presented after the request, each step carries out the next
micro-operation of the call (R119, R120, R160).
-/
namespace Sys2Proof.Machine

/-! ### Nothing presented -/

/-- `s` with nothing presented from the next step on (log entry 6). -/
def State.unattended (s : State) : State := { s with inputs := [] }

@[simp] theorem unattended_phase (s : State) : s.unattended.phase = s.phase := rfl

/-- The micro-operations that a phase other than `IDLE` selects. -/
def isBusyOp (i : Instr) : Prop := isMicroOp i ∧ i ≠ .accept

theorem emitDigit_unattended {q : Key} {s t : State} (h : emitDigit q s.beginStep = .next t) :
    emitDigit q s.unattended.beginStep = .next t.unattended := by
  obtain ⟨hq, hlen, rfl⟩ := emitDigit_eq_next.mp h
  exact emitDigit_eq_next.mpr ⟨hq, hlen, rfl⟩

theorem emitPair_unattended {q : Key} {s t : State} (h : emitPair q s.beginStep = .next t) :
    emitPair q s.unattended.beginStep = .next t.unattended := by
  obtain ⟨w, hw, hlen, rfl⟩ := emitPair_eq_next.mp h
  exact emitPair_eq_next.mpr ⟨w, hw, hlen, rfl⟩

/-- But for `ACCEPT`, what a micro-operation does has nothing to do with what is presented (R115). -/
theorem exec_unattended {i : Instr} {s t : State} (hbusy : isBusyOp i) (h : exec i s = .next t) :
    exec i s.unattended = .next t.unattended := by
  cases i with
  | encodeU32 value cursor capacity => exact absurd rfl (hbusy.1 value cursor capacity)
  | accept => exact absurd rfl hbusy.2
  | predict =>
    obtain ⟨w, hw, rfl⟩ := execPredict_eq_next.mp h
    exact execPredict_eq_next.mpr ⟨w, hw, rfl⟩
  | scale =>
    obtain ⟨hpos, hle, p, hp, rfl⟩ := execScale_eq_next.mp h
    exact execScale_eq_next.mpr ⟨hpos, hle, p, hp, rfl⟩
  | lead =>
    obtain ⟨u, hu, rfl⟩ := execLead_eq_next.mp h
    refine execLead_eq_next.mpr ⟨u.unattended, ?_, rfl⟩
    split at hu
    · next htens => exact (if_pos htens).trans (emitPair_unattended hu)
    · next hbelow => exact (if_neg hbelow).trans (emitDigit_unattended hu)
  | pair =>
    obtain ⟨htwo, p, hp, u, hu, rfl⟩ := execPair_eq_next.mp h
    exact execPair_eq_next.mpr ⟨htwo, p, hp, u.unattended, emitPair_unattended hu, rfl⟩
  | last =>
    obtain ⟨hone, p, hp, u, hu, rfl⟩ := execLast_eq_next.mp h
    exact execLast_eq_next.mpr ⟨hone, p, hp, u.unattended, emitDigit_unattended hu, rfl⟩
  | done =>
    obtain ⟨hlen, rfl⟩ := execDone_eq_next.mp h
    exact execDone_eq_next.mpr ⟨hlen, rfl⟩

/-- With nothing presented, a busy step is the micro-operation of the phase and no more (R115). -/
theorem step_unattended {i : Instr} {s t : State} (hphase : decodePhase s.phase = .ok i) (hbusy : isBusyOp i)
    (h : exec i s = .next t) : step s.unattended = .next t.unattended := by
  rw [step_of_phase (s := s.unattended) rfl nofun hphase, exec_unattended hbusy h, andThen_next]
  rfl

/-- The accepting step takes the request and leaves nothing presented (R117). -/
theorem step_accept {s : State} {r : Request} (hidle : s.phase = Phase.idle)
    (hinputs : s.inputs = [.ports ⟨false, some r, []⟩])
    (hwf : (Instr.encodeU32 r.value r.cursor r.capacity).wellFormed s.aw = true) :
    step s = .next (acceptRequest r s).unattended := by
  have hports := portIn_ports s _ [] hinputs
  have hrequest : s.request = some r := by rw [request_eq, hports, Option.map_some, onWires_of_wellFormed hwf]
  have haccept : exec .accept s = .next (acceptRequest r s) := execAccept_eq_next.mpr (.inl ⟨r, hrequest, rfl⟩)
  have hphase : decodePhase s.phase = .ok .accept := by rw [hidle]; rfl
  rw [step_of_phase (by rw [hports]) (by simp [hinputs]) hphase, haccept, andThen_next]
  simp [State.settle, State.unattended, State.inputsAfter, hinputs, hports]

/-! ### Runs of busy steps -/

/-- `n` steps lead from `s` to `t`, and after each of them no response is presented and the machine is not ready (R160). -/
inductive BusyRun : Nat → State → State → Prop
  | refl (s : State) : BusyRun 0 s s
  | step {n : Nat} {s u t : State} (hstep : step s = .next u) (hrsp : u.rsp = none) (hready : u.reqReady = false)
      (hrest : BusyRun n u t) : BusyRun (n + 1) s t

theorem BusyRun.trans {m n : Nat} {s t u : State} (hst : BusyRun m s t) (htu : BusyRun n t u) : BusyRun (m + n) s u := by
  induction hst with
  | refl s => rwa [Nat.zero_add]
  | step hstep hrsp hready _ ih =>
    rw [Nat.add_right_comm]
    exact .step hstep hrsp hready (ih htu)

/-- A run goes on from where its busy steps lead. -/
theorem BusyRun.run_add {n : Nat} {s t : State} (h : BusyRun n s t) (k : Nat) :
    Host.Core.run core (n + k) s = Host.Core.run core k t := by
  induction h with
  | refl s => rw [Nat.zero_add]
  | step hstep _ _ _ ih => rw [Nat.add_right_comm, run_succ_of_step hstep, ih]

/-- What holds after each of the busy steps. -/
theorem BusyRun.exists_run {n k : Nat} {s t : State} (h : BusyRun n s t) (hpos : 0 < k) (hle : k ≤ n) :
    ∃ u : State, Host.Core.run core k s = .next u ∧ u.rsp = none ∧ u.reqReady = false := by
  induction h generalizing k with
  | refl s => omega
  | @step n s u t hstep hrsp hready _ ih =>
    obtain ⟨j, rfl⟩ := Nat.exists_eq_add_of_le' hpos
    rw [run_succ_of_step hstep]
    rcases Nat.eq_zero_or_pos j with rfl | hj
    · exact ⟨u, rfl, hrsp, hready⟩
    · exact ih hj (by omega)

/-- `IDLE` is the phase in which the machine is ready (R154). -/
theorem reqReady_eq_false {s : State} (h : s.phase ≠ Phase.idle) : s.reqReady = false := by
  simp [State.reqReady, h]

theorem phaseFor_ne_idle (r : Nat) : phaseFor r ≠ Phase.idle := by
  unfold phaseFor
  split_ifs <;> decide

/-- A micro-operation that does not end the call is one busy step. -/
theorem busyRun_of_exec {i : Instr} {s t : State} (hphase : decodePhase s.phase = .ok i) (hbusy : isBusyOp i)
    (hdone : i ≠ .done) (h : exec i s = .next t) (hnext : t.phase ≠ Phase.idle) :
    BusyRun 1 s.unattended t.unattended := by
  obtain ⟨-, hvalid⟩ := Proofs.portsAreValidInTheirSteps i s t hbusy.1 h
  have hrsp : t.rsp = none := Option.not_isSome_iff_eq_none.mp (mt hvalid.mp hdone)
  exact .step (step_unattended hphase hbusy h) hrsp (reqReady_eq_false hnext) (.refl _)

/-! ### The steps of a call -/

/-- The two-digit loop is as many busy steps as rounds, and takes two digits off in each (R92, R95). -/
theorem busyRun_repeatPair {n : Nat} {s t : State} (hphase : s.phase = phaseFor s.rem.toNat)
    (h : repeatPair n s = .next t) :
    BusyRun n s.unattended t.unattended ∧ t.phase = phaseFor t.rem.toNat ∧ t.rem.toNat + 2 * n = s.rem.toNat ∧
      t.nd = s.nd := by
  induction n generalizing s with
  | zero =>
    cases h
    exact ⟨.refl _, hphase, rfl, rfl⟩
  | succ n ih =>
    obtain ⟨u, hu, hrest⟩ := repeatPair_succ_eq_next.mp h
    have hnext := execPair_phase hu
    obtain ⟨htwo, p, -, e, ⟨m, beat, rfl, -⟩, rfl⟩ := execPair_emits hu
    have hrem := toNat_sub_two htwo
    rw [← hrem] at hnext
    have hpair : decodePhase s.phase = .ok .pair := by rw [hphase, phaseFor, if_pos htwo]; rfl
    have hone := busyRun_of_exec hpair ⟨nofun, nofun⟩ nofun hu (hnext ▸ phaseFor_ne_idle _)
    obtain ⟨hrun, hlast, hcount, hnd⟩ := ih hnext hrest
    refine ⟨Nat.add_comm 1 n ▸ hone.trans hrun, hlast, ?_, hnd⟩
    simp only [hrem] at hcount
    omega

/-- The trailing step is one busy step if a digit is outstanding, and none otherwise; `DONE` follows (R93, R95). -/
theorem busyRun_last {s t : State} (hphase : s.phase = phaseFor s.rem.toNat) (hle : s.rem.toNat ≤ 1)
    (h : (if s.rem.toNat = 1 then execLast s else .next s) = .next t) :
    BusyRun s.rem.toNat s.unattended t.unattended ∧ t.phase = Phase.done ∧ t.nd = s.nd := by
  split at h
  · next hone =>
    have hnext := execLast_phase h
    have hlast : decodePhase s.phase = .ok .last := by rw [hphase, hone]; rfl
    have hrun := busyRun_of_exec hlast ⟨nofun, nofun⟩ nofun h (by rw [hnext]; decide)
    obtain ⟨-, p, -, u, ⟨m, beat, rfl, -⟩, rfl⟩ := execLast_emits h
    rw [hone]
    exact ⟨hrun, rfl, rfl⟩
  · have hzero : s.rem.toNat = 0 := by omega
    cases h
    rw [hphase, hzero]
    exact ⟨.refl _, rfl, rfl⟩

/-- `SCALE` and `LEAD` are two busy steps; the digits then outstanding are those of `ND` (R83, R95). -/
theorem busyRun_scale_lead {s t u : State} (hphase : s.phase = Phase.scale) (hscale : execScale s = .next t)
    (hlead : execLead t = .next u) :
    BusyRun 2 s.unattended u.unattended ∧ u.phase = phaseFor u.rem.toNat ∧ u.rem.toNat = u.nd.toNat - 2 := by
  have hscaled := execScale_phase hscale
  have hled := execLead_phase hlead
  have hone := busyRun_of_exec (i := .scale) (by rw [hphase]; rfl) ⟨nofun, nofun⟩ nofun hscale (by rw [hscaled]; decide)
  have htwo := busyRun_of_exec (i := .lead) (by rw [hscaled]; rfl) ⟨nofun, nofun⟩ nofun hlead
    (hled ▸ phaseFor_ne_idle _)
  have hrun := hone.trans htwo
  obtain ⟨-, -, p, -, rfl⟩ := execScale_eq_next.mp hscale
  obtain ⟨e, ⟨m, beat, rfl, -⟩, rfl⟩ := execLead_emits hlead
  exact ⟨hrun, hled, rem0_toNat _⟩

/-- An accepted call is carried out in busy steps, as many as its `ND` asks for, up to its `DONE` (R119, R120). -/
theorem busyRun_finishCall {s t : State} (hphase : s.phase = Phase.predict) (h : finishCall s = .next t) :
    ∃ ended, BusyRun (3 + (t.nd.toNat - 2) / 2 + (t.nd.toNat - 2) % 2) s.unattended ended.unattended ∧
      ended.phase = Phase.done ∧ execDone ended = .next t := by
  obtain ⟨predicted, scaled, led, paired, ended, hpredict, hscale, hlead, hpairs, hlast, hdone⟩ :=
    finishCall_eq_next.mp h
  have hpredicted := execPredict_phase hpredict
  have hone := busyRun_of_exec (i := .predict) (by rw [hphase]; rfl) ⟨nofun, nofun⟩ nofun hpredict
    (by rw [hpredicted]; decide)
  obtain ⟨htwo, hled, hrem⟩ := busyRun_scale_lead hpredicted hscale hlead
  obtain ⟨hloop, hpaired, hcount, hndPaired⟩ := busyRun_repeatPair hled hpairs
  obtain ⟨htrail, hended, hndEnded⟩ := busyRun_last hpaired (by omega) hlast
  have hndDone : t.nd = ended.nd := by
    obtain ⟨-, rfl⟩ := execDone_eq_next.mp hdone
    rfl
  have hrest : paired.rem.toNat = (t.nd.toNat - 2) % 2 := by
    rw [hndDone, hndEnded, hndPaired, ← hrem]
    omega
  rw [hrest] at htrail
  rw [hrem, ← hndPaired, ← hndEnded, ← hndDone] at hloop
  exact ⟨ended, ((hone.trans htwo).trans hloop).trans htrail, hended, hdone⟩

/-- The accepting step is a busy step. -/
theorem busyRun_accept {s : State} {r : Request} (hidle : s.phase = Phase.idle)
    (hinputs : s.inputs = [.ports ⟨false, some r, []⟩])
    (hwf : (Instr.encodeU32 r.value r.cursor r.capacity).wellFormed s.aw = true) :
    BusyRun 1 s (acceptRequest r s).unattended := by
  have hbusy : (acceptRequest r s).phase ≠ Phase.idle := by
    rw [acceptRequest_phase]
    split_ifs <;> decide
  exact .step (step_accept hidle hinputs hwf) (acceptRequest_rsp r s) (reqReady_eq_false hbusy) (.refl _)

/-- The steps of a call before its `DONE`, by the outcome of the capacity check (R120, R160). -/
theorem exists_busyRun_of_encodeU32 {s t : State} {r : Request} (hidle : s.phase = Phase.idle)
    (hinputs : s.inputs = [.ports ⟨false, some r, []⟩])
    (hwf : (Instr.encodeU32 r.value r.cursor r.capacity).wellFormed s.aw = true)
    (h : execEncodeU32 r.value r.cursor r.capacity s = .next t) :
    ∃ n ended, callSteps r.capacity t.nd.toNat = n + 1 ∧ BusyRun n s ended.unattended ∧ ended.phase = Phase.done ∧
      execDone ended = .next t := by
  have haccept := busyRun_accept hidle hinputs hwf
  have hcap := wrapAddr_of_lt (wellFormed_encodeU32_iff.mp hwf).2
  have hwires : Request.onWires s.aw ⟨r.value, r.cursor, r.capacity⟩ = r := onWires_of_wellFormed hwf
  rw [execEncodeU32_eq_next, hcap, hwires] at h
  obtain ⟨-, hsmall, rfl⟩ | ⟨-, hlarge, hfinish⟩ | ⟨hbusy, -⟩ := h
  · refine ⟨1, acceptRequest r s, if_pos hsmall, haccept, by simp [hsmall], execDone_eq_next.mpr ⟨?_, rfl⟩⟩
    simp
  · have hphase : (acceptRequest r s).phase = Phase.predict := by rw [acceptRequest_of_ten_le hlarge]
    obtain ⟨ended, hrun, hended, hdone⟩ := busyRun_finishCall hphase hfinish
    refine ⟨_, ended, ?_, haccept.trans hrun, hended, hdone⟩
    rw [callSteps, if_neg (Nat.not_lt.mpr hlarge)]
    omega
  · exact absurd hidle hbusy

end Sys2Proof.Machine

namespace Sys2Proof.Proofs
open Sys2Proof.Machine

/-- Settles O37: the busy steps of the call lead to its `DONE`, whose step gives the state of the operation. -/
theorem encodeIsTheCompositionOfItsSteps : Obligations.EncodeIsTheCompositionOfItsSteps := by
  intro s r _ hidle hinputs hwf
  obtain ⟨t, ht⟩ := exists_execEncodeU32 r.value r.cursor r.capacity s
  obtain ⟨n, ended, hsteps, hrun, hended, hdone⟩ := exists_busyRun_of_encodeU32 hidle hinputs hwf ht
  have hlast : step ended.unattended = .next t.unattended :=
    step_unattended (i := .done) (by rw [hended]; rfl) ⟨nofun, nofun⟩ hdone
  refine ⟨t, ht, ?_, fun k hpos hlt => hrun.exists_run hpos (by omega)⟩
  rw [hsteps, hrun.run_add, run_succ_of_step hlast]
  rfl

end Sys2Proof.Proofs
end

section
/-!
SUPPORT. The exceptions: where `SCALE`, the Extractor and `DONE` stop (R144), and the two steps of `BufferTooSmall` (R134).
-/
namespace Sys2Proof.Machine

/-! ### Stops of `SCALE` and `DONE` -/

/-- Every way `SCALE` can stop (R144): `ND`, then the product. -/
theorem execScale_eq_fault {s : State} {e : Fault} :
    execScale s = .fault e ↔
      ((s.nd.toNat = 0 ∨ 10 < s.nd.toNat) ∧ e = .ndOutOfRange) ∨
      (1 ≤ s.nd.toNat ∧ s.nd.toNat ≤ 10 ∧ 2 ^ 64 ≤ (s.v.toNat + 1) * s.pre.toNat ∧ e = .productOverflow) := by
  unfold execScale
  split
  · next h =>
    have hlegal : ¬ (s.nd.toNat = 0 ∨ 10 < s.nd.toNat) := by omega
    have hnone := mulExact_eq_none (a := (plusOne s.v).toNat) (b := s.pre.toNat)
    rw [plusOne_toNat] at hnone ⊢
    cases hproduct : mulExact (s.v.toNat + 1) s.pre.toNat with
    | none =>
      simp only [h, hlegal, hnone.mp hproduct, Host.Outcome.fault.injEq, true_and, false_and, false_or]
      exact eq_comm
    | some p =>
      have hfits : ¬ 2 ^ 64 ≤ (s.v.toNat + 1) * s.pre.toNat := by rw [← hnone, hproduct]; exact nofun
      simp only [hlegal, hfits, reduceCtorEq, false_and, and_false, or_false]
  · next h =>
    have hillegal : s.nd.toNat = 0 ∨ 10 < s.nd.toNat := by omega
    simp only [hillegal, ← and_assoc, h, Host.Outcome.fault.injEq, true_and, false_and, or_false]
    exact eq_comm

/-- `DONE` stops exactly on more than ten bytes (R144). -/
theorem execDone_eq_fault {s : State} {e : Fault} : execDone s = .fault e ↔ 10 < s.len.toNat ∧ e = .lenAboveTen := by
  unfold execDone
  split
  · next h => simp only [Nat.not_lt.mpr h, reduceCtorEq, false_and]
  · next h => simp only [Nat.lt_of_not_le h, Host.Outcome.fault.injEq, true_and, eq_comm]

/-! ### Stops of an emission -/

/-- The integer part of an accumulator from `n * UNIT` on is at least `n` (R94). -/
theorem le_ipart {p : Acc} {n : Nat} (h : n * Config.unit ≤ p.toNat) : n ≤ (ipart p).toNat := by
  rw [ipart_toNat]
  exact (Nat.le_div_iff_mul_le (by decide)).mpr h

section
variable {p : Acc} {s : State}

theorem emitPair_ipart_pairRomKey (hp : 100 * Config.unit ≤ p.toNat) : emitPair (ipart p) s = .fault .pairRomKey :=
  emitPair_eq_fault.mpr (.inl ⟨le_ipart hp, rfl⟩)

theorem emitPair_ipart_lenAboveTen (hp : p.toNat < 100 * Config.unit) (hlen : 8 < s.len.toNat) :
    emitPair (ipart p) s = .fault .lenAboveTen :=
  emitPair_eq_fault.mpr (.inr ⟨Nat.le_of_lt_succ (ipart_lt hp), by omega, rfl⟩)

theorem emitDigit_ipart_digitAboveNine (hp : 10 * Config.unit ≤ p.toNat) :
    emitDigit (ipart p) s = .fault .digitAboveNine :=
  emitDigit_eq_fault.mpr (.inl ⟨le_ipart hp, rfl⟩)

theorem emitDigit_ipart_lenAboveTen (hp : p.toNat < 10 * Config.unit) (hlen : 9 < s.len.toNat) :
    emitDigit (ipart p) s = .fault .lenAboveTen :=
  emitDigit_eq_fault.mpr (.inr ⟨Nat.le_of_lt_succ (ipart_lt hp), by omega, rfl⟩)

end

/-! ### Stops of the Extractor at its emission -/

section
variable {s : State} {e : Fault}

/-- From `TENS` on `LEAD` stops where the emission of its pair does (R91). -/
theorem exec_lead_fault_of_emitPair (htens : Config.tens ≤ s.frac.toNat)
    (h : emitPair (ipart s.frac) s.beginStep = .fault e) : exec .lead s = .fault e :=
  execLead_eq_fault.mpr ((if_pos ((atLeastTens_iff _).mpr htens)).trans h)

/-- Below `TENS` `LEAD` stops where the emission of its digit does (R91). -/
theorem exec_lead_fault_of_emitDigit (hbelow : s.frac.toNat < Config.tens)
    (h : emitDigit (ipart s.frac) s.beginStep = .fault e) : exec .lead s = .fault e :=
  execLead_eq_fault.mpr ((if_neg (mt (atLeastTens_iff _).mp (Nat.not_le.mpr hbelow))).trans h)

/-- A number that fits in 64 bits is an accumulator's. -/
theorem exists_acc_of_lt_two_pow {n : Nat} (h : n < 2 ^ 64) : ∃ p : Acc, p.toNat = n :=
  ⟨BitVec.ofNat 64 n, (BitVec.toNat_ofNat n 64).trans (Nat.mod_eq_of_lt h)⟩

/-- `PAIR` stops where the emission of its product, which fits, does (R92). -/
theorem exec_pair_fault_of_emitPair (hrem : 2 ≤ s.rem.toNat) (hfits : s.frac.toNat * 100 < 2 ^ 64)
    (h : ∀ p : Acc, p.toNat = s.frac.toNat * 100 → emitPair (ipart p) s.beginStep = .fault e) :
    exec .pair s = .fault e := by
  obtain ⟨p, hp⟩ := exists_acc_of_lt_two_pow hfits
  exact execPair_eq_fault.mpr (.inr (.inr ⟨hrem, p, hp, h p hp⟩))

/-- `LAST` stops where the emission of its product, which fits, does (R93). -/
theorem exec_last_fault_of_emitDigit (hrem : s.rem.toNat = 1) (hfits : s.frac.toNat * 10 < 2 ^ 64)
    (h : ∀ p : Acc, p.toNat = s.frac.toNat * 10 → emitDigit (ipart p) s.beginStep = .fault e) :
    exec .last s = .fault e := by
  obtain ⟨p, hp⟩ := exists_acc_of_lt_two_pow hfits
  exact execLast_eq_fault.mpr (.inr (.inr ⟨hrem, p, hp, h p hp⟩))

end

/-! ### Steps with quiet surroundings -/

/-- With the ports held outside reset and nobody else writing, a step is the micro-operation of its phase and uses up its
stimulus (R115). -/
theorem step_of_ports {s t : State} {i : Instr} {req : Option Request} {rest : List Stimulus}
    (hinputs : s.inputs = .ports ⟨false, req, []⟩ :: rest) (hphase : decodePhase s.phase = .ok i)
    (h : exec i s = .next t) : step s = .next { t with inputs := rest } := by
  have hports := portIn_ports s _ rest hinputs
  rw [step_of_phase (by rw [hports]) (by simp [hinputs]) hphase, h, andThen_next]
  simp [State.settle, State.inputsAfter, hinputs, hports]

/-- The accepting step latches a well-formed request (R117). -/
theorem step_latches_request {s : State} {r : Request} {rest : List Stimulus} (hidle : s.phase = Phase.idle)
    (hwf : (Instr.encodeU32 r.value r.cursor r.capacity).wellFormed s.aw = true)
    (hinputs : s.inputs = .ports ⟨false, some r, []⟩ :: rest) :
    step s = .next { acceptRequest r s with inputs := rest } := by
  have hrequest : s.request = some r := by
    rw [request_eq, portIn_ports s _ rest hinputs, Option.map_some, onWires_of_wellFormed hwf]
  exact step_of_ports (i := .accept) hinputs (by rw [hidle]; rfl) (execAccept_eq_next.mpr (.inl ⟨r, hrequest, rfl⟩))

/-- The step of `DONE` ends the call, whatever is presented in it (R118). -/
theorem step_ends_call {s : State} {req : Option Request} {rest : List Stimulus} (hdone : s.phase = Phase.done)
    (hlen : s.len.toNat ≤ 10) (hinputs : s.inputs = .ports ⟨false, req, []⟩ :: rest) :
    step s = .next { endCall s with inputs := rest } :=
  step_of_ports (i := .done) hinputs (by rw [hdone]; rfl) (execDone_eq_next.mpr ⟨hlen, rfl⟩)

end Sys2Proof.Machine

namespace Sys2Proof.Proofs
open Sys2Proof.Machine

/-- Settles O11: the two ways `SCALE` can stop. -/
theorem scaleStopsOutsideItsDomain : Obligations.ScaleStopsOutsideItsDomain := fun _ =>
  ⟨fun hnd => execScale_eq_fault.mpr (.inl ⟨hnd, rfl⟩),
    fun hpos hle hproduct => execScale_eq_fault.mpr (.inr ⟨hpos, hle, hproduct, rfl⟩)⟩

/-- Settles O55: the one way `DONE` can stop. -/
theorem doneStopsOnALengthAboveTen : Obligations.DoneStopsOnALengthAboveTen :=
  fun _ hlen => execDone_eq_fault.mpr ⟨hlen, rfl⟩

/-- Settles O19: `REM` and the product by the ways `PAIR` and `LAST` can stop, the rest by the stop of the emission. -/
theorem extractorStopsOutsideItsDomain : Obligations.ExtractorStopsOutsideItsDomain := by
  intro s
  have hunit := unit_eq
  have htens := tens_eq
  refine ⟨?pairRem, ?lastRem, ?pairProduct, ?lastProduct, ?leadKey, ?pairKey, ?lastDigit, ?leadPairLen, ?leadDigitLen,
    ?pairLen, ?lastLen⟩
  case pairRem => exact fun hrem => execPair_eq_fault.mpr (.inl ⟨hrem, rfl⟩)
  case lastRem => exact fun hrem => execLast_eq_fault.mpr (.inl ⟨hrem, rfl⟩)
  case pairProduct => exact fun hrem hproduct => execPair_eq_fault.mpr (.inr (.inl ⟨hrem, hproduct, rfl⟩))
  case lastProduct => exact fun hrem hproduct => execLast_eq_fault.mpr (.inr (.inl ⟨hrem, hproduct, rfl⟩))
  case leadKey => exact fun hfrac => exec_lead_fault_of_emitPair (by omega) (emitPair_ipart_pairRomKey hfrac)
  case pairKey =>
    exact fun hrem hfrac hfits =>
      exec_pair_fault_of_emitPair hrem hfits fun p hp => emitPair_ipart_pairRomKey (by omega)
  case lastDigit =>
    exact fun hrem hfrac hfits =>
      exec_last_fault_of_emitDigit hrem hfits fun p hp => emitDigit_ipart_digitAboveNine (by omega)
  case leadPairLen =>
    exact fun hpair hfrac hlen => exec_lead_fault_of_emitPair hpair (emitPair_ipart_lenAboveTen hfrac hlen)
  case leadDigitLen =>
    exact fun hfrac hlen => exec_lead_fault_of_emitDigit hfrac (emitDigit_ipart_lenAboveTen hfrac hlen)
  case pairLen =>
    exact fun hrem hfrac hlen =>
      exec_pair_fault_of_emitPair hrem (by omega) fun p hp => emitPair_ipart_lenAboveTen (by omega) hlen
  case lastLen =>
    exact fun hrem hfrac hlen =>
      exec_last_fault_of_emitDigit hrem (by omega) fun p hp => emitDigit_ipart_lenAboveTen (by omega) hlen

/-- Settles O29: the request is latched with the fault raised, and the step of `DONE` reports it. -/
theorem bufferTooSmallIsTakenAndReported : Obligations.BufferTooSmallIsTakenAndReported := by
  intro s r req rest hidle hwf hcap hinputs
  have hlatched := step_latches_request hidle hwf hinputs
  have hreported := step_ends_call (s := { acceptRequest r s with inputs := .ports ⟨false, req, []⟩ :: rest })
    (by simp [hcap]) (by simp) rfl
  exact ⟨_, _, hlatched, hreported, by simp [hcap]⟩

end Sys2Proof.Proofs
end

section
/-!
SUPPORT. Partial results (R156): a step of a call appends the next digits of the Value to the bytes written, and nobody
else writes where they stand.
-/
namespace Sys2Proof.Machine

/-! ### Reading consecutive bytes -/

theorem memRead_add (aw : Nat) (m : Memory) (a k n : Nat) :
    memRead aw m a (k + n) = memRead aw m a k ++ memRead aw m (a + k) n := by
  induction k generalizing a with
  | zero => rw [Nat.zero_add, memRead_zero, List.nil_append, Nat.add_zero]
  | succ k ih =>
    rw [Nat.add_right_comm, memRead_succ, ih, memRead_succ, List.cons_append, Nat.add_right_comm, Nat.add_assoc]

/-- Where two memories read alike at each of the addresses, the bytes read are the same. -/
theorem memRead_congr {aw : Nat} {m m' : Memory} {a n : Nat}
    (h : ∀ i < n, m.read (wrapAddr aw (a + i)) = m'.read (wrapAddr aw (a + i))) :
    memRead aw m a n = memRead aw m' a n := by
  induction n generalizing a with
  | zero => rfl
  | succ n ih =>
    have hhead : m.read (wrapAddr aw a) = m'.read (wrapAddr aw a) := h 0 (Nat.succ_pos n)
    have htail : memRead aw m (a + 1) n = memRead aw m' (a + 1) n := ih fun i hi => by
      rw [Nat.add_assoc, Nat.add_comm 1 i]
      exact h (i + 1) (Nat.succ_lt_succ hi)
    rw [memRead_succ, memRead_succ, hhead, htail]

/-- Bytes written behind the first `k`, sixteen in all at most, leave those as they are and are read back after them. -/
theorem memRead_writeBytes_add {aw : Nat} (haw : awLegal aw = true) {bs : List Byte} {k : Nat}
    (hlen : k + bs.length ≤ 16) (m : Memory) (a : Nat) :
    memRead aw (writeBytes aw m (a + k) bs) a (k + bs.length) = memRead aw m a k ++ bs.map some := by
  have hkept : memRead aw (writeBytes aw m (a + k) bs) a k = memRead aw m a k :=
    memRead_congr fun i hi => writeBytes_read_of_ne m fun j hj => by
      rw [Nat.add_assoc]
      exact wrapAddr_ne haw a (by omega) (by omega) (by omega)
  rw [memRead_add, hkept, memRead_writeBytes haw (by omega)]

/-! ### The bytes written so far -/

/-- The bytes written so far are the leading `LEN` bytes of `dec(V)`: what R156 says of a call without fault. -/
def leadingDigitsWritten (s : State) : Prop :=
  memRead s.aw s.out (callStart s) s.len.toNat = ((dec s.v.toNat).take s.len.toNat).map some

theorem prefixWritten_of_idle {s : State} (h : s.phase = Phase.idle) : prefixWritten s := fun hbusy => absurd h hbusy

/-- Before the first digit nothing has to stand in the buffer. -/
theorem leadingDigitsWritten_of_len_zero {s : State} (h : s.len = 0#4) : leadingDigitsWritten s := by
  simp [leadingDigitsWritten, h]

/-- `LEN` is at most the number of addresses, because `AW >= 4` (R7, R16). -/
theorem len_le_two_pow_aw {s : State} (haw : awLegal s.aw = true) : s.len.toNat ≤ 2 ^ s.aw := by
  have hpow : 2 ^ 4 ≤ 2 ^ s.aw := Nat.pow_le_pow_right (by decide) (of_decide_eq_true haw)
  omega

/-- A call keeps the cursor it started from (R96). -/
theorem Appends.callStart_eq {bytes : List Byte} {s t : State} (h : Appends bytes s t) (haw : awLegal s.aw = true) :
    callStart t = callStart s := by
  have hlen := len_le_two_pow_aw (h.aw_eq.symm ▸ haw)
  rw [h.aw_eq, h.len_eq] at hlen
  unfold callStart
  rw [h.aw_eq, h.len_eq, Nat.add_sub_assoc hlen, ← wrapAddr_add, h.cur_eq, wrapAddr_add]
  congr 1
  omega

/-- Appending the next digits of the Value keeps the bytes written its leading digits (R156). -/
theorem Appends.leadingDigitsWritten {bytes : List Byte} {s t : State} (h : Appends bytes s t)
    (haw : awLegal s.aw = true) (hcur : fitsAddr s.aw s.cur = true) (hwritten : Machine.leadingDigitsWritten s)
    (hnext : bytes <+: (dec s.v.toNat).drop s.len.toNat) : Machine.leadingDigitsWritten t := by
  have hcursor : wrapAddr s.aw s.cur = wrapAddr s.aw (callStart s + s.len.toNat) := by
    rw [wrapAddr_callStart_add_len haw hcur]
    exact wrapAddr_of_lt (of_decide_eq_true hcur)
  have hlen : s.len.toNat + bytes.length ≤ 16 := h.len_eq ▸ t.len.isLt.le
  unfold Machine.leadingDigitsWritten at hwritten ⊢
  rw [h.aw_eq, h.callStart_eq haw, h.out_eq, writeBytes_congr hcursor, h.len_eq, memRead_writeBytes_add haw hlen,
    hwritten, h.v_eq, List.take_add, ← List.prefix_iff_eq_take.mp hnext, List.map_append]

/-- Nobody else writes the ten bytes of a buffer that the call owns (R45, R155). -/
theorem bufferOwned.memRead_foreignWrites {s : State} (h : bufferOwned s) (m : Memory) {n : Nat}
    (hn : n ≤ Config.maxDigits) :
    memRead s.aw (foreignWrites s.aw m s.portIn.foreign) (callStart s) n = memRead s.aw m (callStart s) n :=
  memRead_congr fun i hi => foreignWrites_read_of_ne _ fun c hc => h c hc i (hi.trans_le hn)

/-- The surroundings leave the bytes of the call as they are. -/
theorem leadingDigitsWritten.settle {s t : State} (h : leadingDigitsWritten t) (howned : bufferOwned s)
    (haw : t.aw = s.aw) (hstart : callStart t = callStart s) (hlen : t.len.toNat ≤ Config.maxDigits) :
    leadingDigitsWritten (s.settle t) := by
  have hsettled : callStart (s.settle t) = callStart s := hstart
  unfold leadingDigitsWritten at h ⊢
  rw [hsettled, settle_aw, settle_out, settle_len, settle_v, ← h, haw, hstart, howned.memRead_foreignWrites _ hlen]

/-! ### The digits that a step appends -/

theorem drop_lowDigits (v k r : Nat) : (lowDigits v (k + r)).drop k = lowDigits v r := by
  induction k with
  | zero => rw [Nat.zero_add, List.drop_zero]
  | succ k ih => rw [Nat.add_right_comm, lowDigits_succ, List.drop_succ_cons, ih]

/-- During the extraction the digits not yet written are the outstanding ones (R96). -/
theorem extractingOk.drop_dec {s : State} (h : extractingOk s) :
    (dec s.v.toNat).drop s.len.toNat = lowDigits s.v.toNat s.rem.toNat := by
  obtain ⟨-, -, -, -, -, hdigits, -⟩ := h
  rw [dec_eq_lowDigits, ← hdigits, drop_lowDigits]

/-- What `LEAD` appends are the first digits of the Value (R97). -/
theorem leadingOk.leadBytes_prefix {s : State} (h : leadingOk s) :
    leadBytes (s.frac.toNat / Config.unit) <+: (dec s.v.toNat).drop s.len.toNat := by
  obtain ⟨⟨-, hlen, -⟩, hpredicted, hrem, hscaled⟩ := h
  have hzero : s.len.toNat = 0 := by rw [hlen]; rfl
  rw [hzero, List.drop_zero, hpredicted.2.facts.dec_eq, hscaled.div_unit, hrem, rem0_toNat]
  exact List.prefix_append _ _

/-- Every step of a call appends the next digits of its Value, or none (R96 to R98). -/
theorem exec_appends_next_digits {i : Instr} {s t : State} (hcall : callOk s) (hbusy : s.phase ≠ Phase.idle)
    (hphase : decodePhase s.phase = .ok i) (h : exec i s = .next t) :
    ∃ bytes, Appends bytes s t ∧ bytes <+: (dec s.v.toNat).drop s.len.toNat := by
  obtain hp | ⟨hp, -⟩ | ⟨hp, -⟩ | ⟨hp, hleading⟩ | ⟨hp, hextracting, htwo⟩ | ⟨hp, hextracting, hone⟩ | ⟨hp, -⟩ :=
    callOk_iff.mp hcall <;> rw [hp] at hphase <;> cases hphase
  · exact absurd hp hbusy
  · exact ⟨[], execPredict_appends h, List.nil_prefix⟩
  · exact ⟨[], execScale_appends h, List.nil_prefix⟩
  · exact ⟨_, (execLead_appends hleading h).1, hleading.leadBytes_prefix⟩
  · obtain ⟨bytes, happends, hdigits⟩ := execPair_appends hextracting htwo h
    exact ⟨bytes, happends, hextracting.drop_dec ▸ ⟨_, hdigits⟩⟩
  · refine ⟨_, (execLast_appends hextracting hone h).1, ?_⟩
    rw [hextracting.drop_dec, hone]
  · exact ⟨[], execDone_appends h, List.nil_prefix⟩

/-- Outside `IDLE` at most ten bytes are written (R16, R96). -/
theorem callOk.len_le_maxDigits {s : State} (h : callOk s) (hbusy : s.phase ≠ Phase.idle) :
    s.len.toNat ≤ Config.maxDigits := by
  have hempty : s.len = 0#4 → s.len.toNat ≤ Config.maxDigits := fun hlen => by rw [hlen]; decide
  obtain hp | ⟨-, -, hlen, -⟩ | ⟨-, ⟨-, hlen, -⟩, -⟩ | ⟨-, ⟨-, hlen, -⟩, -⟩ | ⟨-, hextracting, -⟩ |
    ⟨-, hextracting, -⟩ | ⟨-, ⟨-, hlen, -⟩ | ⟨-, -, hlen⟩⟩ := callOk_iff.mp h
  · exact absurd hp hbusy
  · exact hempty hlen
  · exact hempty hlen
  · exact hempty hlen
  · exact (Nat.le_add_right _ _).trans hextracting.len_add_rem_le
  · exact (Nat.le_add_right _ _).trans hextracting.len_add_rem_le
  · exact hempty hlen
  · exact hlen ▸ ndigits_le_maxDigits s.v

/-! ### Steps -/

/-- A call begins with nothing written, and without a request no call begins (R116, R117). -/
theorem execAccept_prefixWritten {s t : State} (hidle : s.phase = Phase.idle) (h : execAccept s = .next t) :
    prefixWritten (s.settle t) := by
  obtain ⟨r, -, rfl⟩ | ⟨-, rfl⟩ := execAccept_eq_next.mp h
  · exact fun _ _ => leadingDigitsWritten_of_len_zero (acceptRequest_len r s)
  · exact prefixWritten_of_idle hidle

/-- A step of a call in progress keeps the bytes written the leading digits of the Value (R156). -/
theorem exec_prefixWritten {i : Instr} {s t : State} (hinv : inv s) (hprefix : prefixWritten s) (howned : bufferOwned s)
    (hbusy : s.phase ≠ Phase.idle) (hphase : decodePhase s.phase = .ok i) (h : exec i s = .next t) :
    prefixWritten (s.settle t) := by
  obtain ⟨haw, hcur, -, -, hcall⟩ := inv_iff.mp hinv
  obtain ⟨bytes, happends, hnext⟩ := exec_appends_next_digits hcall hbusy hphase h
  intro hbusy' hst
  have hwritten : leadingDigitsWritten t :=
    happends.leadingDigitsWritten haw hcur (hprefix hbusy (happends.st_eq.symm.trans hst)) hnext
  have hlen : t.len.toNat ≤ Config.maxDigits := (exec_callOk hcall hphase h).len_le_maxDigits hbusy'
  exact hwritten.settle howned happends.aw_eq (happends.callStart_eq haw) hlen

end Sys2Proof.Machine

namespace Sys2Proof.Proofs
open Sys2Proof.Machine

/-- Settles O50: a reset step and the whole operation end in `IDLE`, `ACCEPT` has written nothing, and every other step
appends the next digits of the Value (`exec_appends_next_digits`). -/
theorem stepKeepsTheWrittenPrefix : Obligations.StepKeepsTheWrittenPrefix := by
  intro s t hinv hprefix howned hstep
  obtain ⟨haw, -⟩ := inv_iff.mp hinv
  obtain rfl | ⟨hidle, value, cursor, capacity, u, hu, rfl⟩ | ⟨i, u, hphase, hu, rfl⟩ := step_cases haw hstep
  · exact prefixWritten_of_idle rfl
  · have hover : u.phase = Phase.idle := execEncodeU32_phase hidle hu
    exact prefixWritten_of_idle hover
  · by_cases hidle : s.phase = Phase.idle
    · rw [hidle] at hphase
      cases hphase
      exact execAccept_prefixWritten hidle hu
    · exact exec_prefixWritten hinv hprefix howned hidle hphase hu

end Sys2Proof.Proofs
end

section
/-!
SUPPORT. Reset steps, and requests during a call: outside `IDLE` nothing looks at what the caller presents
(R150 to R154, R157).
-/
namespace Sys2Proof.Machine

/-! ### Reset -/

/-- A reset step runs no instruction (R150). -/
theorem step_of_reset {s : State} (h : s.portIn.rst = true) : step s = .next (s.settle s.resetStep) :=
  step_eq_next.mpr (.inl ⟨h, rfl⟩)

/-! ### Instructions that do not look at the inputs -/

/-- `s` with the stimuli `l` from the next step on. -/
def State.withInputs (s : State) (l : List Stimulus) : State := { s with inputs := l }

@[simp] theorem withInputs_v (s : State) (l : List Stimulus) : (s.withInputs l).v = s.v := rfl
@[simp] theorem withInputs_nd (s : State) (l : List Stimulus) : (s.withInputs l).nd = s.nd := rfl
@[simp] theorem withInputs_pre (s : State) (l : List Stimulus) : (s.withInputs l).pre = s.pre := rfl
@[simp] theorem withInputs_frac (s : State) (l : List Stimulus) : (s.withInputs l).frac = s.frac := rfl
@[simp] theorem withInputs_rem (s : State) (l : List Stimulus) : (s.withInputs l).rem = s.rem := rfl
@[simp] theorem withInputs_len (s : State) (l : List Stimulus) : (s.withInputs l).len = s.len := rfl
@[simp] theorem withInputs_beginStep (s : State) (l : List Stimulus) :
    (s.withInputs l).beginStep = s.beginStep.withInputs l := rfl

/-- What `f` does, and whether it stops, does not depend on the stimuli, which it keeps. -/
def IgnoresInputs (f : State → Result) : Prop :=
  ∀ s l, f (s.withInputs l) = andThen (f s) fun t => .next (t.withInputs l)

/-- In a sequence of two parts, the second goes on from where the first ended. -/
theorem andThen_withInputs {o o' : Result} {f f' : State → Result} {l : List Stimulus}
    (ho : o' = andThen o fun t => .next (t.withInputs l))
    (hf : ∀ t, f' (t.withInputs l) = andThen (f t) fun u => .next (u.withInputs l)) :
    andThen o' f' = andThen (andThen o f) fun t => .next (t.withInputs l) := by
  subst ho
  cases o with
  | next t => exact hf t
  | fault e => rfl
  | refused e => rfl

theorem advanceCursor_ignoresInputs (n : Nat) : IgnoresInputs (advanceCursor n) := by
  intro s l
  unfold advanceCursor
  rw [withInputs_len]
  split
  · rfl
  · rfl

theorem emitDigit_ignoresInputs (q : Key) : IgnoresInputs (emitDigit q) := by
  intro s l
  unfold emitDigit
  split
  · exact andThen_withInputs rfl fun t => advanceCursor_ignoresInputs 1 t l
  · rfl

theorem emitPair_ignoresInputs (q : Key) : IgnoresInputs (emitPair q) := by
  intro s l
  unfold emitPair
  cases pairRom q with
  | none => rfl
  | some w => exact andThen_withInputs rfl fun t => advanceCursor_ignoresInputs 2 t l

theorem execPredict_ignoresInputs : IgnoresInputs execPredict := by
  intro s l
  unfold execPredict
  rw [withInputs_v]
  cases scaleRom (order s.v) with
  | none => rfl
  | some w => rfl

theorem execScale_ignoresInputs : IgnoresInputs execScale := by
  intro s l
  unfold execScale
  rw [withInputs_nd, withInputs_v, withInputs_pre]
  split
  · cases mulExact (plusOne s.v).toNat s.pre.toNat with
    | none => rfl
    | some p => rfl
  · rfl

theorem execLead_ignoresInputs : IgnoresInputs execLead := by
  intro s l
  unfold execLead
  rw [withInputs_frac, withInputs_rem, withInputs_beginStep]
  refine andThen_withInputs ?_ fun t => rfl
  split
  · exact emitPair_ignoresInputs _ s.beginStep l
  · exact emitDigit_ignoresInputs _ s.beginStep l

theorem execPair_ignoresInputs : IgnoresInputs execPair := by
  intro s l
  unfold execPair
  rw [withInputs_frac, withInputs_rem, withInputs_beginStep]
  split
  · cases mulExact s.frac.toNat 100 with
    | none => rfl
    | some p => exact andThen_withInputs (emitPair_ignoresInputs _ s.beginStep l) fun t => rfl
  · rfl

theorem execLast_ignoresInputs : IgnoresInputs execLast := by
  intro s l
  unfold execLast
  rw [withInputs_frac, withInputs_rem, withInputs_beginStep]
  split
  · cases mulExact s.frac.toNat 10 with
    | none => rfl
    | some p => exact andThen_withInputs (emitDigit_ignoresInputs _ s.beginStep l) fun t => rfl
  · rfl

theorem execDone_ignoresInputs : IgnoresInputs execDone := by
  intro s l
  unfold execDone
  rw [withInputs_len]
  split
  · rfl
  · rfl

/-- Of the micro-operations only `ACCEPT` looks at the request ports (R115, R117). -/
theorem exec_ignoresInputs {i : Instr} (hbusy : isBusyOp i) : IgnoresInputs (exec i) := by
  cases i with
  | encodeU32 value cursor capacity => exact absurd rfl (hbusy.1 value cursor capacity)
  | accept => exact absurd rfl hbusy.2
  | predict => exact execPredict_ignoresInputs
  | scale => exact execScale_ignoresInputs
  | lead => exact execLead_ignoresInputs
  | pair => exact execPair_ignoresInputs
  | last => exact execLast_ignoresInputs
  | done => exact execDone_ignoresInputs

/-! ### Busy steps -/

/-- Outside `IDLE` the phase selects a micro-operation other than `ACCEPT`, unless it is the reserved one (R54, R60). -/
theorem exists_busyOp {p : BitVec 3} (hbusy : p ≠ Phase.idle) (hreserved : p ≠ 0b111#3) :
    ∃ i, decodePhase p = .ok i ∧ isBusyOp i := by
  rcases decodePhase_cases p with ⟨hp, -⟩ | ⟨-, hi⟩ | ⟨-, hi⟩ | ⟨-, hi⟩ | ⟨-, hi⟩ | ⟨-, hi⟩ | ⟨-, hi⟩ | ⟨hp, -⟩
  · exact absurd hp hbusy
  · exact ⟨_, hi, nofun, nofun⟩
  · exact ⟨_, hi, nofun, nofun⟩
  · exact ⟨_, hi, nofun, nofun⟩
  · exact ⟨_, hi, nofun, nofun⟩
  · exact ⟨_, hi, nofun, nofun⟩
  · exact ⟨_, hi, nofun, nofun⟩
  · exact absurd hp hreserved

/-- Outside `IDLE` a step looks at the reset port and at the other agents' writes only: the rest of the stimuli shows in
nothing but the stimuli that are left (R154, R157). -/
theorem step_withInputs {s : State} {l k : List Stimulus} (hbusy : s.phase ≠ Phase.idle)
    (hrst : (s.withInputs l).portIn.rst = (s.withInputs k).portIn.rst)
    (hforeign : (s.withInputs l).portIn.foreign = (s.withInputs k).portIn.foreign) :
    step (s.withInputs l) =
      andThen (step (s.withInputs k)) fun t => .next (t.withInputs (s.withInputs l).inputsAfter) := by
  have hsettle : ∀ t : State, (s.withInputs l).settle (t.withInputs l) =
      ((s.withInputs k).settle (t.withInputs k)).withInputs (s.withInputs l).inputsAfter := fun t => by
    unfold State.settle
    rw [hforeign]
    rfl
  cases hreset : (s.withInputs k).portIn.rst with
  | true =>
    rw [step_of_reset (hrst.trans hreset), step_of_reset hreset, andThen_next]
    exact congrArg Host.Outcome.next (hsettle s.resetStep)
  | false =>
    by_cases hreserved : s.phase = 0b111#3
    · rw [Proofs.reservedPhaseStops (s.withInputs l) hreserved (hrst.trans hreset),
        Proofs.reservedPhaseStops (s.withInputs k) hreserved hreset, andThen_fault]
    · obtain ⟨i, hphase, hop⟩ := exists_busyOp hbusy hreserved
      rw [step_of_busy (s := s.withInputs l) hbusy (hrst.trans hreset) hphase,
        step_of_busy (s := s.withInputs k) hbusy hreset hphase, exec_ignoresInputs hop s l, exec_ignoresInputs hop s k]
      cases exec i s with
      | next t => exact congrArg Host.Outcome.next (hsettle t)
      | fault e => rfl
      | refused e => rfl

end Sys2Proof.Machine

namespace Sys2Proof.Proofs
open Sys2Proof.Machine

/-- Settles O33: the two steps agree by `step_withInputs`; a step's own stimulus is used up, an operation is held. -/
theorem requestsWhileBusyHaveNoEffect : Obligations.RequestsWhileBusyHaveNoEffect := by
  intro s p r w rest hbusy
  have hheld : (s.withInputs (.operation w :: rest)).inputsAfter = .operation w :: rest := if_neg hbusy
  constructor
  · have hreplaced := step_withInputs (l := .ports { p with req := r } :: rest) (k := .ports p :: rest) hbusy rfl rfl
    have hsame := step_withInputs (l := .ports p :: rest) (k := .ports p :: rest) hbusy rfl rfl
    exact hreplaced.trans hsame.symm
  · have hwaits := step_withInputs (l := .operation w :: rest) (k := .ports PortIn.quiet :: rest) hbusy rfl rfl
    rwa [hheld] at hwaits

/-- Settles O36: outside `IDLE` the operation waits, one of the three things `ENCODE_U32` can do. -/
theorem encodeWaitsWhileBusy : Obligations.EncodeWaitsWhileBusy :=
  fun _ _ _ _ hbusy => execEncodeU32_eq_next.mpr (.inr (.inr ⟨hbusy, rfl⟩))

/-- Settles O44: `step_of_reset`, whose next state does not mention the request. -/
theorem resetAbandonsTheCall : Obligations.ResetAbandonsTheCall := by
  intro s req req' rest
  have hreset : ∀ req, step { s with inputs := .ports ⟨true, req, []⟩ :: rest } =
      .next { s.resetStep with inputs := rest } := fun req => step_of_reset rfl
  exact ⟨(hreset req).trans (hreset req').symm, _, hreset req, rfl, rfl, rfl, rfl, rfl, rfl, rfl⟩

end Sys2Proof.Proofs
end
